-- ==== Sys2Proof/Word.lean ====
section
/-! DEFINITION. The word types of the BFU and its plainest arithmetic (00_scope.md R11, R14). -/

namespace Sys2Proof

/-- A byte: an unsigned 8-bit value (00_scope.md R11). -/
abbrev Byte := BitVec 8

/-- The content of a 64-bit register, or the data of one host access (10_state.md R20, R27). -/
abbrev Word := BitVec 64

/-- A 32-bit command word (30_encoding.md R75). -/
abbrev CmdWord := BitVec 32

/-- An MMIO offset from UNIT_BASE: 128 KiB of offsets, 0x00000 to 0x1FFFF (20_memory.md R50). -/
abbrev Offset := BitVec 17

/-- `ceil_div` of 00_scope.md R14. -/
def ceilDiv (a d : Nat) : Nat := (a + d - 1) / d

end Sys2Proof
end

