-- ==== Sys2Proof/Config.lean ====
section
/-! DEFINITION. What an implementation of the BFU fixes (00_scope.md R8 to R10, 10_state.md R26). -/

namespace Sys2Proof

/-- The byte order of BV.SHIFT (00_scope.md R10): `be` treats byte 0 as the most significant byte
(42_bitvector_setalgebra.md R145), `le` as the least significant (R146). -/
inductive ShiftOrder where
  | be
  | le
deriving DecidableEq, Repr

/-- The build parameters a program can observe (00_scope.md R8): MAXB and SHIFT_ORDER. MAXB is held as the number of
8-byte words of a buffer, less one, so that every value of the type is a legal MAXB: a multiple of 8 in 8..1024. -/
structure Build where
  /-- MAXB / 8 - 1. -/
  words : Fin 128
  shiftOrder : ShiftOrder
deriving DecidableEq, Repr

/-- MAXB, the capacity of one buffer register in bytes (00_scope.md R8). -/
def Build.maxb (b : Build) : Nat := 8 * (b.words.val + 1)

/-- The defaults of 00_scope.md R8: MAXB = 256, SHIFT_ORDER = BE. -/
def Build.standard : Build := { words := 31, shiftOrder := .be }

/-- UNIT_BASE, the host address of MMIO offset 0: the platform's choice (00_scope.md R8), so it has no value here. The BFU
cannot observe it (92_eei_decisions.md D20). -/
opaque Config.unitBase : Nat

/-- The size of the MMIO window: 128 KiB (20_memory.md R50). -/
def Config.windowSize : Nat := 0x20000

end Sys2Proof
end

