-- ==== Sys2Proof/Syntax.lean ====
section
/-! DEFINITION. The commands of the BFU (30_encoding.md R84), the events of its host port (20_memory.md R54, R55,
70_reset_and_hazards.md R195) and the lines of a host program (30_encoding.md R85 to R87). -/

namespace Sys2Proof

/-- The number of a scalar register x0..x7 (10_state.md R20). -/
abbrev XReg := Fin 8

/-- The number of a buffer register b0..b7 (10_state.md R21). -/
abbrev BReg := Fin 8

/-- The 18 commands (30_encoding.md R84), operands in the order D, A, B, V of R85. A scalar operand is an `XReg`, a buffer
operand a `BReg`, the immediate V a `Bool` (R77, R78). Every term is a legal command. -/
inductive Instr where
  /-- NOP (43_system.md R160). -/
  | nop
  /-- BL.NEW bD, xA (40_bitlist.md R102). -/
  | blNew (d : BReg) (a : XReg)
  /-- BL.LEN xD, bA (40_bitlist.md R105). -/
  | blLen (d : XReg) (a : BReg)
  /-- BL.BITAT xD, bA, xB (40_bitlist.md R103). -/
  | blBitat (d : XReg) (a : BReg) (b : XReg)
  /-- BL.SETBIT bD, xA, #V (40_bitlist.md R104). -/
  | blSetbit (d : BReg) (a : XReg) (v : Bool)
  /-- BL.COUNT xD, bA (40_bitlist.md R107). -/
  | blCount (d : XReg) (a : BReg)
  /-- BL.BYTES bD, bA (40_bitlist.md R106). -/
  | blBytes (d : BReg) (a : BReg)
  /-- BV.NEW bD (41_bitvector.md R121). -/
  | bvNew (d : BReg)
  /-- BV.LEN xD (41_bitvector.md R124). -/
  | bvLen (d : XReg)
  /-- BV.BITAT xD, bA, xB (41_bitvector.md R122). -/
  | bvBitat (d : XReg) (a : BReg) (b : XReg)
  /-- BV.SETBIT bD, xA, #V (41_bitvector.md R123). -/
  | bvSetbit (d : BReg) (a : XReg) (v : Bool)
  /-- BV.COUNT xD, bA (41_bitvector.md R125). -/
  | bvCount (d : XReg) (a : BReg)
  /-- BV.BYTES bD, bA (41_bitvector.md R126). -/
  | bvBytes (d : BReg) (a : BReg)
  /-- BV.INDICES xD, bA (41_bitvector.md R127). -/
  | bvIndices (d : XReg) (a : BReg)
  /-- BV.CONTAINS xD, bA, bB (42_bitvector_setalgebra.md R141). -/
  | bvContains (d : XReg) (a b : BReg)
  /-- BV.OVERLAPS xD, bA, bB (42_bitvector_setalgebra.md R142). -/
  | bvOverlaps (d : XReg) (a b : BReg)
  /-- BV.OR bD, bA, bB (42_bitvector_setalgebra.md R143). -/
  | bvOr (d : BReg) (a b : BReg)
  /-- BV.SHIFT bD, xA (42_bitvector_setalgebra.md R144). -/
  | bvShift (d : BReg) (a : XReg)
deriving DecidableEq, Repr

/-- What reaches the BFU's port (70_reset_and_hazards.md R204): a read or write request with its offset, its width in
bytes and, for a write, its data; or the hardware reset input, one event between two accesses (R195, R196). -/
inductive HostEvent where
  | read (off : Offset) (bytes : Nat)
  | write (off : Offset) (bytes : Nat) (v : Word)
  | rst
deriving DecidableEq, Repr

/-- One line of a host program (30_encoding.md R85 to R87): a command, a raw access, or a pseudo-instruction. -/
inductive HostLine where
  /-- A command, assembled to one CMD write (R85). -/
  | cmd (i : Instr)
  /-- `wr OFF, VAL` (R86). -/
  | wr (off : Nat) (val : Int)
  /-- `rd OFF` (R86). -/
  | rd (off : Nat)
  /-- `li xN, VAL` (R87). -/
  | li (n : XReg) (val : Int)
  /-- `rdx xN` (R87). -/
  | rdx (n : XReg)
  /-- `setn VAL` (R87). -/
  | setn (val : Int)
  /-- `ldbuf bN, [s0, ..., sk-1]` (R87). -/
  | ldbuf (n : BReg) (bytes : List Byte)
  /-- `rdbuf bN` (R87). -/
  | rdbuf (n : BReg)
  /-- `rdstat` (R87). -/
  | rdstat
  /-- `srst` (R87). -/
  | srst
deriving DecidableEq, Repr

end Sys2Proof
end

