-- ==== Sys2Proof/WellFormed.lean ====
section
/-! DEFINITION. What an assembler must check of a host line (30_encoding.md R86, R87). A command (`Instr`) needs no check: "A
3-bit field can name every register of its file, so no register number is out of range" (R77), and V is one bit (R78). The
checks on a command WORD (R75, R79, R80) are the decoder's. -/

namespace Sys2Proof

/-- An offset of the MMIO space, 0x00000 to 0x1FFFF (20_memory.md R50). -/
def offsetWf (off : Nat) : Bool := off < Config.windowSize

/-- A written value fits 64 bits, either as an unsigned value or as a negative two's-complement one (30_encoding.md R86). -/
def valueWf (val : Int) : Bool := -(2 ^ 63) ≤ val && val < 2 ^ 64

/-- The host line is legal on a BFU with this build. An `ldbuf` longer than MAXB "is not a legal pseudo-instruction", and "an
assembler must reject it" (30_encoding.md R87). -/
def HostLine.wellFormed (b : Build) : HostLine → Bool
  | .cmd _ => true
  | .wr off val => offsetWf off && valueWf val
  | .rd off => offsetWf off
  | .li _ val => valueWf val
  | .rdx _ => true
  | .setn val => valueWf val
  | .ldbuf _ bytes => bytes.length ≤ b.maxb
  | .rdbuf _ => true
  | .rdstat => true
  | .srst => true

end Sys2Proof
end

