-- ==== Sys2Proof/Decode.lean ====
section
/-! DEFINITION. The command encoding, format C (30_encoding.md R75 to R84): the opcode table, the decoder of a value written to
CMD (R93), the encoder, and the decoder the host asks about opcode-table words. -/

namespace Sys2Proof

/-- The mnemonics of the opcode table (30_encoding.md R84). -/
inductive Mnemonic where
  | nop
  | blNew | blLen | blBitat | blSetbit | blCount | blBytes
  | bvNew | bvLen | bvBitat | bvSetbit | bvCount | bvBytes | bvIndices
  | bvContains | bvOverlaps | bvOr | bvShift
deriving DecidableEq, Repr

/-- A row of the opcode table: a command word c selects it when `c &&& mask = code` (30_encoding.md R79, R84). -/
structure Row where
  mnemonic : Mnemonic
  code : CmdWord
  mask : CmdWord
deriving DecidableEq, Repr

/-- The opcode table, its match and mask columns as 30_encoding.md R84 has them. -/
def opcodeTable : List Row :=
  [ ⟨.nop,        0x00000001, 0xFFFFFFFF⟩,
    ⟨.blNew,      0x00000010, 0xFFFF88FF⟩,
    ⟨.blLen,      0x00000011, 0xFFFF88FF⟩,
    ⟨.blBitat,    0x00000012, 0xFFF888FF⟩,
    ⟨.blSetbit,   0x00000013, 0xFFEF88FF⟩,
    ⟨.blCount,    0x00000014, 0xFFFF88FF⟩,
    ⟨.blBytes,    0x00000015, 0xFFFF88FF⟩,
    ⟨.bvNew,      0x00000020, 0xFFFFF8FF⟩,
    ⟨.bvLen,      0x00000021, 0xFFFFF8FF⟩,
    ⟨.bvBitat,    0x00000022, 0xFFF888FF⟩,
    ⟨.bvSetbit,   0x00000023, 0xFFEF88FF⟩,
    ⟨.bvCount,    0x00000024, 0xFFFF88FF⟩,
    ⟨.bvBytes,    0x00000025, 0xFFFF88FF⟩,
    ⟨.bvIndices,  0x00000026, 0xFFFF88FF⟩,
    ⟨.bvContains, 0x00000027, 0xFFF888FF⟩,
    ⟨.bvOverlaps, 0x00000028, 0xFFF888FF⟩,
    ⟨.bvOr,       0x00000029, 0xFFF888FF⟩,
    ⟨.bvShift,    0x0000002A, 0xFFFF88FF⟩ ]

/-- OPC, bits 7:0 (30_encoding.md R76). -/
def fieldOpc (c : CmdWord) : BitVec 8 := c.extractLsb' 0 8

/-- D, bits 10:8 (30_encoding.md R76, R93). -/
def fieldD (c : CmdWord) : Fin 8 := (c.extractLsb' 8 3).toFin

/-- A, bits 14:12 (30_encoding.md R76, R93). -/
def fieldA (c : CmdWord) : Fin 8 := (c.extractLsb' 12 3).toFin

/-- B, bits 18:16 (30_encoding.md R76, R93). -/
def fieldB (c : CmdWord) : Fin 8 := (c.extractLsb' 16 3).toFin

/-- V, bit 20 (30_encoding.md R76, R93). -/
def fieldV (c : CmdWord) : Bool := c.getLsbD 20

/-- The command a selected row makes of the word's fields (30_encoding.md R84, "fields" column). -/
def Mnemonic.instr (m : Mnemonic) (c : CmdWord) : Instr :=
  match m with
  | .nop => .nop
  | .blNew => .blNew (fieldD c) (fieldA c)
  | .blLen => .blLen (fieldD c) (fieldA c)
  | .blBitat => .blBitat (fieldD c) (fieldA c) (fieldB c)
  | .blSetbit => .blSetbit (fieldD c) (fieldA c) (fieldV c)
  | .blCount => .blCount (fieldD c) (fieldA c)
  | .blBytes => .blBytes (fieldD c) (fieldA c)
  | .bvNew => .bvNew (fieldD c)
  | .bvLen => .bvLen (fieldD c)
  | .bvBitat => .bvBitat (fieldD c) (fieldA c) (fieldB c)
  | .bvSetbit => .bvSetbit (fieldD c) (fieldA c) (fieldV c)
  | .bvCount => .bvCount (fieldD c) (fieldA c)
  | .bvBytes => .bvBytes (fieldD c) (fieldA c)
  | .bvIndices => .bvIndices (fieldD c) (fieldA c)
  | .bvContains => .bvContains (fieldD c) (fieldA c) (fieldB c)
  | .bvOverlaps => .bvOverlaps (fieldD c) (fieldA c) (fieldB c)
  | .bvOr => .bvOr (fieldD c) (fieldA c) (fieldB c)
  | .bvShift => .bvShift (fieldD c) (fieldA c)

/-- Why a written value is no command. All three raise ILLEGAL_CMD (60_exceptions.md R173 (a), (b), (c)). -/
inductive DecodeError where
  /-- (a) Bits 63:32 of the written value are not 0. -/
  | highHalfNotZero
  /-- (b) OPC is not an opcode of the table. -/
  | unknownOpcode
  /-- (c) A must-be-zero bit or an unused field is not 0. -/
  | mustBeZero
deriving DecidableEq, Repr

/-- The row a command word selects (30_encoding.md R79, R93). -/
def selectRow (c : CmdWord) : Option Row :=
  opcodeTable.find? fun r => c &&& r.mask == r.code

/-- OPC is an opcode of the table (30_encoding.md R80, R84). -/
def opcodeAssigned (c : CmdWord) : Bool :=
  opcodeTable.any fun r => fieldOpc r.code == fieldOpc c

/-- Decode of the 64-bit value written to CMD (30_encoding.md R93): total, with the reason where it is ILLEGAL_CMD. -/
def decode (w : Word) : Except DecodeError Instr :=
  if w.extractLsb' 32 32 ≠ 0 then .error .highHalfNotZero
  else
    match selectRow (w.extractLsb' 0 32) with
    | some r => .ok (r.mnemonic.instr (w.extractLsb' 0 32))
    | none =>
      if opcodeAssigned (w.extractLsb' 0 32) then .error .mustBeZero else .error .unknownOpcode

/-- Format C assembled from its fields, every other bit 0 (30_encoding.md R76). -/
def formatC (opc : BitVec 8) (d a b : Fin 8) (v : Bool) : CmdWord :=
  0#11 ++ BitVec.ofBool v ++ 0#1 ++ BitVec.ofFin (w := 3) b ++ 0#1 ++ BitVec.ofFin (w := 3) a ++ 0#1 ++
    BitVec.ofFin (w := 3) d ++ opc

/-- The command word of a command (30_encoding.md R84). Unused fields are 0 (R79). -/
def encode : Instr → CmdWord
  | .nop => formatC 0x01 0 0 0 false
  | .blNew d a => formatC 0x10 d a 0 false
  | .blLen d a => formatC 0x11 d a 0 false
  | .blBitat d a b => formatC 0x12 d a b false
  | .blSetbit d a v => formatC 0x13 d a 0 v
  | .blCount d a => formatC 0x14 d a 0 false
  | .blBytes d a => formatC 0x15 d a 0 false
  | .bvNew d => formatC 0x20 d 0 0 false
  | .bvLen d => formatC 0x21 d 0 0 false
  | .bvBitat d a b => formatC 0x22 d a b false
  | .bvSetbit d a v => formatC 0x23 d a 0 v
  | .bvCount d a => formatC 0x24 d a 0 false
  | .bvBytes d a => formatC 0x25 d a 0 false
  | .bvIndices d a => formatC 0x26 d a 0 false
  | .bvContains d a b => formatC 0x27 d a b false
  | .bvOverlaps d a b => formatC 0x28 d a b false
  | .bvOr d a b => formatC 0x29 d a b false
  | .bvShift d a => formatC 0x2A d a 0 false

/-- The 64-bit value a host writes to CMD to run a command: the command word in the low half, 0 in the high half
(30_encoding.md R75). -/
def cmdValue (i : Instr) : Word := (encode i).setWidth 64

/-- The value the port delivers for an opcode-table word of `nbits` bits: every bit from `nbits` on is 0. -/
def tableValue (nbits w : Nat) : Word := BitVec.ofNat 64 (w % 2 ^ nbits)

/-- The command the decoder reads from an opcode-table word. -/
def decodeTableWord (nbits w : Nat) : Option Instr := (decode (tableValue nbits w)).toOption

end Sys2Proof
end

