-- ==== Sys2Proof/Machine/State.lean ====
section
/-! DEFINITION. The state of the BFU (10_state.md R40), its host port's pending events and responses, and its reset values
(10_state.md R39). -/

namespace Sys2Proof.Machine

/-- What STATUS.FCAUSE records (60_exceptions.md R172): its four codes. Codes 0x04 to 0xFF are "never recorded". -/
inductive FaultCause where
  /-- 0x00: FAULTED = 0. -/
  | none
  /-- 0x01 ILLEGAL_CMD (R173). -/
  | illegalCmd
  /-- 0x02 CAPACITY (R175). -/
  | capacity
  /-- 0x03 MALFORMED_BITLIST (R174). -/
  | malformedBitlist
deriving DecidableEq, Repr

/-- The response code of the host port (20_memory.md R54 to R57). -/
inductive RespCode where
  | okay
  | busErr
deriving DecidableEq, Repr

/-- What the port returns for one access: a code and, for a read, 64 bits of data (70_reset_and_hazards.md R204). -/
inductive HostResponse where
  | read (code : RespCode) (data : Word)
  | write (code : RespCode)
deriving DecidableEq, Repr

/-- The state of the machine. The fields from `x` to `seq` are the tuple of 10_state.md R40; `build`, `requests` and
`responses` are the model's own (log entries 1 and 2). -/
structure State where
  /-- The build parameters MAXB and SHIFT_ORDER (00_scope.md R8); no step changes them (R9). -/
  build : Build
  /-- x0..x7 (R20). -/
  x : Vector Word 8
  /-- b0..b7, each the sequence of its len bytes (R21, R22). -/
  buf : Vector (List Byte) 8
  /-- The index memory's leading entries; every entry beyond the list is 0 (R24). -/
  idx : List Word
  /-- IDXCNT (R24). -/
  idxCnt : Word
  /-- CFG.VN (R30). -/
  vn : BitVec 32
  /-- STATUS.FAULTED (R31). -/
  faulted : Bool
  /-- STATUS.LMERR (R31, R37). -/
  lmerr : Bool
  /-- STATUS.FCAUSE (R31). -/
  fcause : FaultCause
  /-- FINFO (R32). -/
  finfo : Word
  /-- SEQ (R34). -/
  seq : Word
  /-- The port events not yet served, oldest first (70_reset_and_hazards.md R205). -/
  requests : List HostEvent
  /-- The responses the port has returned, oldest first (70_reset_and_hazards.md R205). -/
  responses : List HostResponse
deriving DecidableEq, Repr

/-- Why the MODEL stops with a fault: never. A BFU fault (60_exceptions.md R171) is a next state whose STATUS.FAULTED is 1,
and BUSERR (20_memory.md R56, R57) is a response. Safe: no run is cut off. -/
inductive Fault
deriving DecidableEq, Repr

/-- Why the model gives an instruction no meaning. -/
inductive Refusal where
  /-- An arm of `exec` that is not modelled yet raises it. Safe: the run stops. No arm does. -/
  | notModelled (mnemonic : String)
deriving DecidableEq, Repr

/-- How the evaluation of a command's pseudocode ends (30_encoding.md R94). -/
inductive CmdResult where
  /-- Outcome 1: `raise Fault(cause)`. -/
  | fault (cause : FaultCause)
  /-- Outcome 2: `result LengthMismatch`. -/
  | lengthMismatch
  /-- Outcome 3: success, with the state in which the command's own writes are committed. -/
  | success (s : State)
deriving DecidableEq, Repr

/-- Every piece of state at its value of 10_state.md R39, for a given build, with an idle port. -/
def State.resetOf (build : Build) : State :=
  { build := build
    x := Vector.replicate 8 0
    buf := Vector.replicate 8 []
    idx := []
    idxCnt := 0
    vn := 16
    faulted := false
    lmerr := false
    fcause := .none
    finfo := 0
    seq := 0
    requests := []
    responses := [] }

/-- The machine right after reset, in the default build of 00_scope.md R8 (log entry 1). -/
def State.reset : State := State.resetOf Build.standard

end Sys2Proof.Machine
end

