-- ==== Sys2Proof/Machine/Operands.lean ====
section
/-! DEFINITION. Byte sequences and their bits, the arithmetic helpers (00_scope.md R12 to R15, 40_bitlist.md R100), and how a
command reads its operands (30_encoding.md R77, R78, 41_bitvector.md R120). -/

namespace Sys2Proof.Machine

/-- `getbit` of 00_scope.md R13: bit p mod 8 of byte p / 8. A position past the sequence reads 0; no command reads one. -/
def getBit (s : List Byte) (p : Nat) : Bool := (s.getD (p / 8) 0).getLsbD (p % 8)

/-- A byte with its bit j replaced by v, as 00_scope.md R13 writes it. -/
def setByteBit (b : Byte) (j : Nat) (v : Bool) : Byte :=
  (b &&& ~~~(1#8 <<< j)) ||| ((BitVec.ofBool v).setWidth 8 <<< j)

/-- `setbit` of 00_scope.md R13. -/
def setBit (s : List Byte) (p : Nat) (v : Bool) : List Byte :=
  s.set (p / 8) (setByteBit (s.getD (p / 8) 0) (p % 8) v)

/-- `popcount8` of 00_scope.md R14: the number of 1 bits of a byte. -/
def popcount8 (b : Byte) : Nat := (List.range 8).countP fun j => b.getLsbD j

/-- `popcount` of 00_scope.md R14: the sum of `popcount8` over the bytes. -/
def popcount (s : List Byte) : Nat := (s.map popcount8).sum

/-- `bitlen8` of 00_scope.md R14: the 1-indexed position of the highest set bit, 0 for the byte 0. -/
def bitLen8 (b : Byte) : Nat := if b = 0 then 0 else 1 + b.toNat.log2

/-- `wf` of 40_bitlist.md R100: empty, or the last byte is not 0. -/
def blWf (s : List Byte) : Bool :=
  match s.getLast? with
  | none => true
  | some b => b != 0

/-- `BLLen` of 40_bitlist.md R100, the logical length read from the sentinel. Every command that uses it checks `blWf` first
(R101). -/
def blLen (s : List Byte) : Nat :=
  match s.getLast? with
  | none => 0
  | some b => 8 * (s.length - 1) + bitLen8 b - 1

/-- A boolean result: 64-bit 1 or 0 (00_scope.md R17). -/
def boolWord (b : Bool) : Word := (BitVec.ofBool b).setWidth 64

/-- `zext_64` of 00_scope.md R14. -/
def zext64 (n : Nat) : Word := BitVec.ofNat 64 n

/-- `sint64` of 00_scope.md R14: the two's-complement reading. -/
def sint64 (v : Word) : Int := v.toInt

/-- Byte k of a 64-bit access, `v[8k+7 : 8k]` (20_memory.md R59). -/
def wordByte (v : Word) (k : Nat) : Byte := v.extractLsb' (8 * k) 8

/-- A scalar register operand (00_scope.md R15). -/
def State.readX (s : State) (r : XReg) : Word := s.x[r]

/-- A buffer register operand: the sequence it holds (00_scope.md R15). -/
def State.readBuf (s : State) (b : BReg) : List Byte := s.buf[b]

/-- `data[i]` of a buffer register: 0 for i >= len (10_state.md R22, 20_memory.md R58). -/
def State.bufByte (s : State) (b : BReg) (i : Nat) : Byte := (s.readBuf b).getD i 0

/-- Entry k of the index memory: 0 beyond the listed entries (10_state.md R24). -/
def State.readIdx (s : State) (k : Nat) : Word := s.idx.getD k 0

/-- N, the bitvector width: the value of CFG.VN (41_bitvector.md R120). -/
def State.width (s : State) : Nat := s.vn.toNat

/-- B, the bitvector's byte width: ceil_div(N, 8) (41_bitvector.md R120). -/
def State.byteWidth (s : State) : Nat := ceilDiv s.width 8

/-- `addressable` of 41_bitvector.md R120: exactly B bytes. -/
def State.addressable (s : State) (bytes : List Byte) : Bool := bytes.length == s.byteWidth

/-- The leading bytes that count, export and listing see: `s[0 .. m(s))`, m(s) = min(|s|, B) (41_bitvector.md R120). -/
def State.seen (s : State) (bytes : List Byte) : List Byte := bytes.take (min bytes.length s.byteWidth)

/-- The positions of a sequence's set bits, ascending (41_bitvector.md R127). -/
def setPositions (bytes : List Byte) : List Nat := (List.range (8 * bytes.length)).filter (getBit bytes)

end Sys2Proof.Machine
end

