-- ==== Sys2Proof/Machine/Flags.lean ====
section
/-! DEFINITION. The one flag LMERR (10_state.md R37), what every completed command writes (30_encoding.md R95), and the STATUS
word (10_state.md R31). -/

namespace Sys2Proof.Machine

/-- Completion (30_encoding.md R95): LMERR says whether the command ended in LengthMismatch, and SEQ counts it, modulo 2^64
(10_state.md R34). -/
def State.complete (s : State) (lengthMismatch : Bool) : State :=
  { s with lmerr := lengthMismatch, seq := s.seq + 1 }

/-- The cause code (60_exceptions.md R172). -/
def FaultCause.code : FaultCause → BitVec 8
  | .none => 0x00
  | .illegalCmd => 0x01
  | .capacity => 0x02
  | .malformedBitlist => 0x03

/-- STATUS (10_state.md R31): FAULTED in bit 0, LMERR in bit 1, BUSY hardwired 0 in bit 2, FCAUSE in bits 15:8, the rest 0. -/
def State.status (s : State) : Word :=
  0#48 ++ s.fcause.code ++ 0#5 ++ 0#1 ++ BitVec.ofBool s.lmerr ++ BitVec.ofBool s.faulted

end Sys2Proof.Machine
end

