-- ==== Sys2Proof/Machine/Ops.lean ====
section
/-! DEFINITION. The named operations over the state: register and memory writes (00_scope.md R15), fault entry
(60_exceptions.md R171), the return from a fault, which is reset (R181, 70_reset_and_hazards.md R195), and the end of a command
(30_encoding.md R94, R95). -/

namespace Sys2Proof.Machine

/-- The canonical form of the unit's memories: every buffer has at most MAXB bytes (10_state.md R21), and the index memory
lists exactly its IDXCNT entries, at most 8*MAXB of them (R24). -/
def Memory.wf (s : State) : Bool :=
  (s.buf.toList.all fun bytes => bytes.length ≤ s.build.maxb) &&
    s.idx.length ≤ 8 * s.build.maxb && s.idxCnt.toNat == s.idx.length

/-- `x[r] <- v` (00_scope.md R15). -/
def State.writeX (s : State) (r : XReg) (v : Word) : State := { s with x := s.x.set r v }

/-- `buf[b] <- bytes` (00_scope.md R15). The bytes beyond the new length are 0 because the buffer holds no others
(10_state.md R22). -/
def State.writeBuf (s : State) (b : BReg) (bytes : List Byte) : State := { s with buf := s.buf.set b bytes }

/-- The whole index memory and IDXCNT replaced by one listing (41_bitvector.md R127). -/
def State.writeListing (s : State) (positions : List Nat) : State :=
  { s with idx := positions.map zext64, idxCnt := zext64 positions.length }

/-- Fault entry (60_exceptions.md R171): the three fault fields, and nothing else. `w` is the full 64-bit value written to CMD. -/
def State.enterFault (s : State) (cause : FaultCause) (w : Word) : State :=
  { s with faulted := true, fcause := cause, finfo := w }

/-- Reset of the unit, hardware or soft (70_reset_and_hazards.md R195), the only way out of the faulted state
(60_exceptions.md R181). The build is configuration and keeps its value (R195); the port's events and responses belong to the host
side (log entry 6). -/
def State.resetUnit (s : State) : State :=
  { State.resetOf s.build with requests := s.requests, responses := s.responses }

/-- The end of a command (30_encoding.md R94, R95). A fault leaves the state before the command, plus the fault record: FINFO is
the value written, which for a decoded command is its one word (log entry 3). -/
def retire (i : Instr) (s : State) : CmdResult → Host.Outcome State Fault Refusal
  | .fault cause => .next (s.enterFault cause (cmdValue i))
  | .lengthMismatch => .next (s.complete true)
  | .success s' => .next (s'.complete false)

/-- A bitlist operand: MALFORMED_BITLIST comes before anything else the command does (40_bitlist.md R101). -/
def withBitlist (s : State) (b : BReg) (k : List Byte → CmdResult) : CmdResult :=
  if blWf (s.readBuf b) then k (s.readBuf b) else .fault .malformedBitlist

/-- The two operands of a set-algebra command: unequal byte lengths end it in LengthMismatch (42_bitvector_setalgebra.md
R140). -/
def withPair (s : State) (a b : BReg) (k : List Byte → List Byte → CmdResult) : CmdResult :=
  if (s.readBuf a).length ≠ (s.readBuf b).length then .lengthMismatch else k (s.readBuf a) (s.readBuf b)

end Sys2Proof.Machine
end

