-- ==== Sys2Proof/Machine/Bitlist.lean ====
section
/-! DEFINITION. The bitlist family (40_bitlist.md R102 to R107). -/

namespace Sys2Proof.Machine

/-- The empty bitlist of length n: floor(n/8) + 1 bytes, all 0 but the sentinel at bit n mod 8 of the last (40_bitlist.md
R102). -/
def newBitlist (n : Nat) : List Byte := List.replicate (n / 8) 0 ++ [1#8 <<< (n % 8)]

/-- The last byte with its highest set bit, the sentinel, cleared (40_bitlist.md R106). -/
def clearSentinel (bytes : List Byte) : List Byte :=
  match bytes.getLast? with
  | none => []
  | some t => bytes.dropLast ++ [t &&& ~~~(1#8 <<< (bitLen8 t - 1))]

/-- The trailing zero bytes dropped (40_bitlist.md R106). -/
def trimZeros (bytes : List Byte) : List Byte := (bytes.reverse.dropWhile (· == 0)).reverse

/-- BL.NEW bD, xA (40_bitlist.md R102): CAPACITY when n > 8*MAXB - 1. -/
def execBlNew (d : BReg) (a : XReg) (s : State) : Host.Outcome State Fault Refusal :=
  retire (.blNew d a) s <|
    if (s.readX a).toNat > 8 * s.build.maxb - 1 then .fault .capacity
    else .success (s.writeBuf d (newBitlist (s.readX a).toNat))

/-- BL.LEN xD, bA (40_bitlist.md R105). -/
def execBlLen (d : XReg) (a : BReg) (s : State) : Host.Outcome State Fault Refusal :=
  retire (.blLen d a) s <| withBitlist s a fun bytes => .success (s.writeX d (zext64 (blLen bytes)))

/-- BL.BITAT xD, bA, xB (40_bitlist.md R103): 0 for an index at or past the length. -/
def execBlBitat (d : XReg) (a : BReg) (b : XReg) (s : State) : Host.Outcome State Fault Refusal :=
  retire (.blBitat d a b) s <| withBitlist s a fun bytes =>
    .success (s.writeX d (if (s.readX b).toNat < blLen bytes then boolWord (getBit bytes (s.readX b).toNat) else 0))

/-- BL.SETBIT bD, xA, #V (40_bitlist.md R104): no change for an index at or past the length. -/
def execBlSetbit (d : BReg) (a : XReg) (v : Bool) (s : State) : Host.Outcome State Fault Refusal :=
  retire (.blSetbit d a v) s <| withBitlist s d fun bytes =>
    .success (if (s.readX a).toNat < blLen bytes then s.writeBuf d (setBit bytes (s.readX a).toNat v) else s)

/-- BL.COUNT xD, bA (40_bitlist.md R107): the population count, less one for the sentinel when it is not 0. -/
def execBlCount (d : XReg) (a : BReg) (s : State) : Host.Outcome State Fault Refusal :=
  retire (.blCount d a) s <| withBitlist s a fun bytes =>
    .success (s.writeX d (if popcount bytes ≠ 0 then zext64 (popcount bytes - 1) else 0))

/-- BL.BYTES bD, bA (40_bitlist.md R106): the sentinel cleared, the trailing zero bytes dropped. -/
def execBlBytes (d : BReg) (a : BReg) (s : State) : Host.Outcome State Fault Refusal :=
  retire (.blBytes d a) s <| withBitlist s a fun bytes => .success (s.writeBuf d (trimZeros (clearSentinel bytes)))

end Sys2Proof.Machine
end

