-- ==== Sys2Proof/Machine/Bitvector.lean ====
section
/-! DEFINITION. The bitvector family: construction, single bits, count, export and index listing (41_bitvector.md R121 to
R127). None of these commands can fault (60_exceptions.md R177). -/

namespace Sys2Proof.Machine

/-- A single bit can be accessed: the index is below N and the buffer has exactly B bytes (41_bitvector.md R122, R123). -/
def State.bitAccessible (s : State) (bytes : List Byte) (index : Nat) : Bool :=
  decide (index < s.width) && s.addressable bytes

/-- BV.NEW bD (41_bitvector.md R121): B zero bytes. -/
def execBvNew (d : BReg) (s : State) : Host.Outcome State Fault Refusal :=
  retire (.bvNew d) s <| .success (s.writeBuf d (List.replicate s.byteWidth 0))

/-- BV.LEN xD (41_bitvector.md R124): N, whatever the buffers hold. -/
def execBvLen (d : XReg) (s : State) : Host.Outcome State Fault Refusal :=
  retire (.bvLen d) s <| .success (s.writeX d (zext64 s.width))

/-- BV.BITAT xD, bA, xB (41_bitvector.md R122). -/
def execBvBitat (d : XReg) (a : BReg) (b : XReg) (s : State) : Host.Outcome State Fault Refusal :=
  retire (.bvBitat d a b) s <| .success <| s.writeX d <|
    if s.bitAccessible (s.readBuf a) (s.readX b).toNat then boolWord (getBit (s.readBuf a) (s.readX b).toNat) else 0

/-- BV.SETBIT bD, xA, #V (41_bitvector.md R123). -/
def execBvSetbit (d : BReg) (a : XReg) (v : Bool) (s : State) : Host.Outcome State Fault Refusal :=
  retire (.bvSetbit d a v) s <| .success <|
    if s.bitAccessible (s.readBuf d) (s.readX a).toNat then
      s.writeBuf d (setBit (s.readBuf d) (s.readX a).toNat v)
    else s

/-- BV.COUNT xD, bA (41_bitvector.md R125). -/
def execBvCount (d : XReg) (a : BReg) (s : State) : Host.Outcome State Fault Refusal :=
  retire (.bvCount d a) s <| .success (s.writeX d (zext64 (popcount (s.seen (s.readBuf a)))))

/-- BV.BYTES bD, bA (41_bitvector.md R126). -/
def execBvBytes (d : BReg) (a : BReg) (s : State) : Host.Outcome State Fault Refusal :=
  retire (.bvBytes d a) s <| .success (s.writeBuf d (s.seen (s.readBuf a)))

/-- BV.INDICES xD, bA (41_bitvector.md R127): the listing to the index memory, its length to IDXCNT and x[D]. -/
def execBvIndices (d : XReg) (a : BReg) (s : State) : Host.Outcome State Fault Refusal :=
  retire (.bvIndices d a) s <| .success <|
    (s.writeListing (setPositions (s.seen (s.readBuf a)))).writeX d
      (zext64 (setPositions (s.seen (s.readBuf a))).length)

end Sys2Proof.Machine
end

