-- ==== Sys2Proof/Machine/SetAlgebra.lean ====
section
/-! DEFINITION. The set-algebra family and the shift (42_bitvector_setalgebra.md R140 to R147). -/

namespace Sys2Proof.Machine

/-- a contains b: every byte has `a[i] & b[i] = b[i]` (42_bitvector_setalgebra.md R141). -/
def bytesContain (a b : List Byte) : Bool := (a.zip b).all fun (p, q) => p &&& q == q

/-- a and b overlap: some byte has `a[i] & b[i] != 0` (42_bitvector_setalgebra.md R142). -/
def bytesOverlap (a b : List Byte) : Bool := (a.zip b).any fun (p, q) => p &&& q != 0

/-- The bytewise union (42_bitvector_setalgebra.md R143). -/
def bytesOr (a b : List Byte) : List Byte := List.zipWith (· ||| ·) a b

/-- `val` in LE order (42_bitvector_setalgebra.md R146): the sum of s[i] * 2^(8*i). -/
def valLe : List Byte → Nat
  | [] => 0
  | b :: rest => b.toNat + 2 ^ 8 * valLe rest

/-- `val` in BE order (42_bitvector_setalgebra.md R145): the sum of s[i] * 2^(8*(L-1-i)). -/
def valBe : List Byte → Nat
  | [] => 0
  | b :: rest => b.toNat * 2 ^ (8 * rest.length) + valBe rest

/-- `val` of 42_bitvector_setalgebra.md R144, by SHIFT_ORDER. -/
def shiftVal : ShiftOrder → List Byte → Nat
  | .be => valBe
  | .le => valLe

/-- `unval` of 42_bitvector_setalgebra.md R144: byte i is `(V >> (8*(L-1-i))) & 0xFF` in BE order (R145) and
`(V >> (8*i)) & 0xFF` in LE order (R146). -/
def shiftUnval (order : ShiftOrder) (v len : Nat) : List Byte :=
  (List.range len).map fun i =>
    match order with
    | .be => BitVec.ofNat 8 (v >>> (8 * (len - 1 - i)))
    | .le => BitVec.ofNat 8 (v >>> (8 * i))

/-- The shift of an 8L-bit value by a signed amount (42_bitvector_setalgebra.md R144). The case |n| >= 8L, where the rule gives 0,
comes first, so that no power of an unbounded amount is formed. -/
def shiftValue (v len : Nat) (n : Int) : Nat :=
  if n.natAbs ≥ 8 * len then 0
  else if 0 ≤ n then v * 2 ^ n.natAbs % 2 ^ (8 * len)
  else v / 2 ^ n.natAbs

/-- `tailclear` of 42_bitvector_setalgebra.md R147. -/
def State.tailClear (s : State) (bytes : List Byte) : List Byte :=
  if bytes.length = s.byteWidth ∧ s.width % 8 ≠ 0 then
    bytes.set (s.byteWidth - 1) (bytes.getD (s.byteWidth - 1) 0 &&& ((1#8 <<< (s.width % 8)) - 1))
  else bytes

/-- The shifted sequence before the tail clear (42_bitvector_setalgebra.md R144). -/
def shiftBytes (order : ShiftOrder) (bytes : List Byte) (n : Int) : List Byte :=
  shiftUnval order (shiftValue (shiftVal order bytes) bytes.length n) bytes.length

/-- BV.CONTAINS xD, bA, bB (42_bitvector_setalgebra.md R141). -/
def execBvContains (d : XReg) (a b : BReg) (s : State) : Host.Outcome State Fault Refusal :=
  retire (.bvContains d a b) s <| withPair s a b fun p q => .success (s.writeX d (boolWord (bytesContain p q)))

/-- BV.OVERLAPS xD, bA, bB (42_bitvector_setalgebra.md R142). -/
def execBvOverlaps (d : XReg) (a b : BReg) (s : State) : Host.Outcome State Fault Refusal :=
  retire (.bvOverlaps d a b) s <| withPair s a b fun p q => .success (s.writeX d (boolWord (bytesOverlap p q)))

/-- BV.OR bD, bA, bB (42_bitvector_setalgebra.md R143). -/
def execBvOr (d : BReg) (a b : BReg) (s : State) : Host.Outcome State Fault Refusal :=
  retire (.bvOr d a b) s <| withPair s a b fun p q => .success (s.writeBuf d (bytesOr p q))

/-- BV.SHIFT bD, xA (42_bitvector_setalgebra.md R144). An empty buffer is left as it is. -/
def execBvShift (d : BReg) (a : XReg) (s : State) : Host.Outcome State Fault Refusal :=
  retire (.bvShift d a) s <| .success <|
    if (s.readBuf d).length = 0 then s
    else s.writeBuf d (s.tailClear (shiftBytes s.build.shiftOrder (s.readBuf d) (sint64 (s.readX a))))

end Sys2Proof.Machine
end

