-- ==== Sys2Proof/Machine/System.lean ====
section
/-! DEFINITION. The system command (43_system.md). -/

namespace Sys2Proof.Machine

/-- NOP (43_system.md R160): no data state is read or written; the command completes. -/
def execNop (s : State) : Host.Outcome State Fault Refusal := retire .nop s (.success s)

end Sys2Proof.Machine
end

