-- ==== Sys2Proof/Machine/Dispatch.lean ====
section
/-! DEFINITION. One arm per command of 30_encoding.md R84: its meaning (R94). -/

namespace Sys2Proof.Machine

/-- Execute (30_encoding.md R94): the meaning of a decoded command in the state before it. -/
def exec (i : Instr) (s : State) : Host.Outcome State Fault Refusal :=
  match i with
  | .nop => Sys2Proof.Machine.execNop s
  | .blNew d a => Sys2Proof.Machine.execBlNew d a s
  | .blLen d a => Sys2Proof.Machine.execBlLen d a s
  | .blBitat d a b => Sys2Proof.Machine.execBlBitat d a b s
  | .blSetbit d a v => Sys2Proof.Machine.execBlSetbit d a v s
  | .blCount d a => Sys2Proof.Machine.execBlCount d a s
  | .blBytes d a => Sys2Proof.Machine.execBlBytes d a s
  | .bvNew d => Sys2Proof.Machine.execBvNew d s
  | .bvLen d => Sys2Proof.Machine.execBvLen d s
  | .bvBitat d a b => Sys2Proof.Machine.execBvBitat d a b s
  | .bvSetbit d a v => Sys2Proof.Machine.execBvSetbit d a v s
  | .bvCount d a => Sys2Proof.Machine.execBvCount d a s
  | .bvBytes d a => Sys2Proof.Machine.execBvBytes d a s
  | .bvIndices d a => Sys2Proof.Machine.execBvIndices d a s
  | .bvContains d a b => Sys2Proof.Machine.execBvContains d a b s
  | .bvOverlaps d a b => Sys2Proof.Machine.execBvOverlaps d a b s
  | .bvOr d a b => Sys2Proof.Machine.execBvOr d a b s
  | .bvShift d a => Sys2Proof.Machine.execBvShift d a s

end Sys2Proof.Machine
end

