-- ==== Sys2Proof/Machine/Mmio.lean ====
section
/-! DEFINITION. The MMIO map (20_memory.md R53), the value each register reads as (R54, R58, R61, 10_state.md R27 to R35) and the
host writes that run no command (20_memory.md R55, R59, R60, 10_state.md R30, R35). -/

namespace Sys2Proof.Machine

/-- The registers of the MMIO map (20_memory.md R53). -/
inductive MmioReg where
  | id | param | cfg | status | cmd | seq | finfo | ctrl | idxCnt
  | x (r : XReg)
  | blen (b : BReg)
  /-- Word j of the data of buffer b. -/
  | bufData (b : BReg) (j : Nat)
  /-- Entry k of the index memory. -/
  | idx (k : Nat)
deriving DecidableEq, Repr

/-- The register at an offset; none for a misaligned or unmapped one (20_memory.md R53, R56, R57). -/
def mmioReg (build : Build) (off : Offset) : Option MmioReg :=
  let o := off.toNat
  if o % 8 ≠ 0 then none
  else if o < 0x48 then
    match o / 8 with
    | 0 => some .id
    | 1 => some .param
    | 2 => some .cfg
    | 3 => some .status
    | 4 => some .cmd
    | 5 => some .seq
    | 6 => some .finfo
    | 7 => some .ctrl
    | _ => some .idxCnt
  else if 0x100 ≤ o ∧ o < 0x140 then some (.x (Fin.ofNat 8 ((o - 0x100) / 8)))
  else if 0x200 ≤ o ∧ o < 0x240 then some (.blen (Fin.ofNat 8 ((o - 0x200) / 8)))
  else if 0x1000 ≤ o ∧ o < 0x1000 + 8 * build.maxb then
    some (.bufData (Fin.ofNat 8 ((o - 0x1000) / build.maxb)) ((o - 0x1000) % build.maxb / 8))
  else if 0x10000 ≤ o ∧ o < 0x10000 + 64 * build.maxb then some (.idx ((o - 0x10000) / 8))
  else none

/-- The register an access reaches: only an 8-byte access at a mapped, aligned offset is legal (20_memory.md R56, R57). -/
def accessedReg (build : Build) (off : Offset) (bytes : Nat) : Option MmioReg :=
  if bytes = 8 then mmioReg build off else none

/-- ID (10_state.md R28). -/
def idWord : Word := 0x0000000746544942

/-- PARAM (10_state.md R29): MAXB in 15:0, NBUF = 8 in 19:16, NX = 8 in 23:20, SHIFT_LE in 24, the rest 0. -/
def paramWord (build : Build) : Word :=
  0#39 ++ BitVec.ofBool (build.shiftOrder == .le) ++ 8#4 ++ 8#4 ++ BitVec.ofNat 16 build.maxb

/-- BUFDATA word j of a buffer: little-endian packing, byte 8j in bits 7:0 (20_memory.md R58). -/
def State.bufWord (s : State) (b : BReg) (j : Nat) : Word :=
  s.bufByte b (8 * j + 7) ++ s.bufByte b (8 * j + 6) ++ s.bufByte b (8 * j + 5) ++ s.bufByte b (8 * j + 4) ++
    s.bufByte b (8 * j + 3) ++ s.bufByte b (8 * j + 2) ++ s.bufByte b (8 * j + 1) ++ s.bufByte b (8 * j)

/-- The value a legal read returns (20_memory.md R54). CMD and CTRL read 0 (10_state.md R33, R35). -/
def State.readReg (s : State) : MmioReg → Word
  | .id => idWord
  | .param => paramWord s.build
  | .cfg => s.vn.setWidth 64
  | .status => s.status
  | .cmd => 0
  | .seq => s.seq
  | .finfo => s.finfo
  | .ctrl => 0
  | .idxCnt => s.idxCnt
  | .x r => s.readX r
  | .blen b => zext64 (s.readBuf b).length
  | .bufData b j => s.bufWord b j
  | .idx k => s.readIdx k

/-- A write of CFG (10_state.md R30): VN takes a legal value of bits 31:0 and keeps its own otherwise (WARL). -/
def State.writeCfg (s : State) (v : Word) : State :=
  if 1 ≤ (v.setWidth 32).toNat ∧ (v.setWidth 32).toNat ≤ 8 * s.build.maxb then { s with vn := v.setWidth 32 } else s

/-- A write of CTRL (10_state.md R35): bit 0 = 1 is a soft reset. -/
def State.writeCtrl (s : State) (v : Word) : State := if v.getLsbD 0 then s.resetUnit else s

/-- A write of BLEN (20_memory.md R60): a shrink cuts bytes off, a growth adds zero bytes, a value above MAXB is ignored. -/
def State.writeBlen (s : State) (b : BReg) (v : Word) : State :=
  if v.toNat ≤ s.build.maxb then
    s.writeBuf b ((s.readBuf b).take v.toNat ++ List.replicate (v.toNat - (s.readBuf b).length) 0)
  else s

/-- The bytes of a buffer after a write of v to its word j: byte 8j + k takes byte k of v when it is below the length
(20_memory.md R59). -/
def mergeWord (bytes : List Byte) (j : Nat) (v : Word) : List Byte :=
  bytes.mapIdx fun i old => if i / 8 = j then wordByte v (i % 8) else old

/-- A write of BUFDATA (20_memory.md R59): the length does not change and bytes beyond it are discarded. -/
def State.writeBufData (s : State) (b : BReg) (j : Nat) (v : Word) : State :=
  s.writeBuf b (mergeWord (s.readBuf b) j v)

end Sys2Proof.Machine
end

