-- ==== Sys2Proof/Machine/Port.lean ====
section
/-! DEFINITION. The host port: serving one access or reset (20_memory.md R54 to R63, 70_reset_and_hazards.md R195, R196), the
command step (30_encoding.md R92, R93), and how an access reaches the port. -/

namespace Sys2Proof.Machine

/-- The port returns a response (70_reset_and_hazards.md R204). -/
def State.respond (s : State) (r : HostResponse) : State := { s with responses := s.responses ++ [r] }

/-- The command step (30_encoding.md R92 to R95): a write while FAULTED is dropped, a value that decodes to no command enters the
fault state with ILLEGAL_CMD, and a command is executed. -/
def cmdWrite (w : Word) (s : State) : Host.Outcome State Fault Refusal :=
  if s.faulted then .next s
  else
    match decode w with
    | .error _ => .next (s.enterFault .illegalCmd w)
    | .ok i => exec i s

/-- The effect of a legal host write (20_memory.md R55). Read-only registers ignore it. -/
def writeReg (r : MmioReg) (v : Word) (s : State) : Host.Outcome State Fault Refusal :=
  match r with
  | .id => .next s
  | .param => .next s
  | .cfg => .next (s.writeCfg v)
  | .status => .next s
  | .cmd => cmdWrite v s
  | .seq => .next s
  | .finfo => .next s
  | .ctrl => .next (s.writeCtrl v)
  | .idxCnt => .next s
  | .x i => .next (s.writeX i v)
  | .blen b => .next (s.writeBlen b v)
  | .bufData b j => .next (s.writeBufData b j v)
  | .idx _ => .next s

/-- A host read (20_memory.md R54, R56, R57): it changes nothing but the port's responses. -/
def serveRead (off : Offset) (bytes : Nat) (s : State) : State :=
  match accessedReg s.build off bytes with
  | some r => s.respond (.read .okay (s.readReg r))
  | none => s.respond (.read .busErr 0)

/-- A host write (20_memory.md R55, R56, R57). A legal write is answered OKAY whatever the command it runs does
(60_exceptions.md R179, 70_reset_and_hazards.md R196). -/
def serveWrite (off : Offset) (bytes : Nat) (v : Word) (s : State) : Host.Outcome State Fault Refusal :=
  match accessedReg s.build off bytes with
  | some r => writeReg r v (s.respond (.write .okay))
  | none => .next (s.respond (.write .busErr))

/-- One event of the port, served whole (20_memory.md R63, R64). The hardware reset gets no response. -/
def serve (e : HostEvent) (s : State) : Host.Outcome State Fault Refusal :=
  match e with
  | .read off bytes => .next (serveRead off bytes s)
  | .write off bytes v => serveWrite off bytes v s
  | .rst => .next s.resetUnit

/-- The oldest pending event is taken from the port and served (20_memory.md R63). With none pending the unit waits
(log entry 17). -/
def servePort (s : State) : Host.Outcome State Fault Refusal :=
  match s.requests with
  | [] => .next s
  | e :: rest => serve e { s with requests := rest }

/-- The offset of CMD (10_state.md R27). -/
def cmdOffset : Offset := 0x0020

/-- The host's next access becomes the CMD write that carries an opcode-table word (30_encoding.md R75), ahead of what is
pending. -/
def State.withCmdWrite (s : State) (nbits w : Nat) : State :=
  { s with requests := .write cmdOffset 8 (tableValue nbits w) :: s.requests }

/-- The MMIO offset of a host address; none outside the 128 KiB window (20_memory.md R57). -/
def windowOffset (addr : Nat) : Option Offset :=
  if Config.unitBase ≤ addr ∧ addr < Config.unitBase + Config.windowSize then
    some (BitVec.ofNat 17 (addr - Config.unitBase))
  else none

/-- The host issues a read at an address. Outside the window it "is not seen by the BFU at all" (20_memory.md R57). -/
def State.hostRead (s : State) (addr bytes : Nat) : State :=
  match windowOffset addr with
  | some off => { s with requests := s.requests ++ [.read off bytes] }
  | none => s

/-- The host issues a write at an address (20_memory.md R57). -/
def State.hostWrite (s : State) (addr bytes : Nat) (v : Word) : State :=
  match windowOffset addr with
  | some off => { s with requests := s.requests ++ [.write off bytes v] }
  | none => s

end Sys2Proof.Machine
end

