-- ==== Sys2Proof/Machine/Step.lean ====
section
/-! DEFINITION. One step of the machine: one event of the host port (20_memory.md R63). -/

namespace Sys2Proof.Machine

/-- One step: the oldest pending port event, served whole. -/
def step (s : State) : Host.Outcome State Fault Refusal := servePort s

/-- `s` with an opcode-table word as the host's next CMD write, where `step` takes its next command from (10_state.md R33). -/
def State.withFetchWord (s : State) (nbits w : Nat) : State := s.withCmdWrite nbits w

end Sys2Proof.Machine
end

