-- ==== Sys2Proof/Machine/Assembler.lean ====
section
/-! DEFINITION. The assembler of host programs: the text of a line (30_encoding.md R85, R86) and the host accesses it stands for
(R85 to R87). Text is a list of characters. -/

namespace Sys2Proof.Machine

/-- MmioWrite(off, 8, val), a negative value in two's complement (30_encoding.md R86). -/
def accessWr (off : Nat) (val : Int) : HostEvent := .write (BitVec.ofNat 17 off) 8 (BitVec.ofInt 64 val)

/-- MmioRead(off, 8) (30_encoding.md R86). -/
def accessRd (off : Nat) : HostEvent := .read (BitVec.ofNat 17 off) 8

/-- The BUFDATA word j that `ldbuf` writes: the sum over m < 8 with 8j + m < k of s[8j+m] << 8m (30_encoding.md R87). -/
def packWord (bytes : List Byte) (j : Nat) : Nat :=
  ((List.range 8).map fun m => (bytes.getD (8 * j + m) 0).toNat <<< (8 * m)).sum

/-- The host accesses of a line (30_encoding.md R85 to R87). `len` is the length an `rdbuf` reads back first: the number of bytes the
buffer it names holds when the line runs. -/
def lineAccesses (build : Build) (len : Nat) : HostLine → List HostEvent
  | .cmd i => [accessWr 0x0020 (encode i).toNat]
  | .wr off val => [accessWr off val]
  | .rd off => [accessRd off]
  | .li n val => [accessWr (0x0100 + 8 * n.val) val]
  | .rdx n => [accessRd (0x0100 + 8 * n.val)]
  | .setn val => [accessWr 0x0010 val]
  | .ldbuf n bytes =>
    accessWr (0x0200 + 8 * n.val) bytes.length ::
      (List.range (ceilDiv bytes.length 8)).map fun j =>
        accessWr (0x1000 + n.val * build.maxb + 8 * j) (packWord bytes j)
  | .rdbuf n =>
    accessRd (0x0200 + 8 * n.val) ::
      (List.range (ceilDiv len 8)).map fun j => accessRd (0x1000 + n.val * build.maxb + 8 * j)
  | .rdstat => [accessRd 0x0018]
  | .srst => [accessWr 0x0038 1]

/-- The length that decides an `rdbuf` line's accesses in a state; other lines do not depend on it. -/
def lineBufferLen (s : State) : HostLine → Nat
  | .rdbuf n => (s.readBuf n).length
  | _ => 0

/-- The host issues a line's accesses to the port, in a state whose port has served everything before it. -/
def State.issueLine (s : State) (line : HostLine) : State :=
  { s with requests := s.requests ++ lineAccesses s.build (lineBufferLen s line) line }

/-- The mnemonics as 30_encoding.md R84 spells them. -/
def mnemonicText : Mnemonic → String
  | .nop => "NOP"
  | .blNew => "BL.NEW"
  | .blLen => "BL.LEN"
  | .blBitat => "BL.BITAT"
  | .blSetbit => "BL.SETBIT"
  | .blCount => "BL.COUNT"
  | .blBytes => "BL.BYTES"
  | .bvNew => "BV.NEW"
  | .bvLen => "BV.LEN"
  | .bvBitat => "BV.BITAT"
  | .bvSetbit => "BV.SETBIT"
  | .bvCount => "BV.COUNT"
  | .bvBytes => "BV.BYTES"
  | .bvIndices => "BV.INDICES"
  | .bvContains => "BV.CONTAINS"
  | .bvOverlaps => "BV.OVERLAPS"
  | .bvOr => "BV.OR"
  | .bvShift => "BV.SHIFT"

/-- The decimal digit of a register number. -/
def regDigit (r : Fin 8) : Char := Char.ofNat (48 + r.val)

/-- A scalar operand, `x0`..`x7` (30_encoding.md R85). -/
def xText (r : XReg) : List Char := ['x', regDigit r]

/-- A buffer operand, `b0`..`b7` (30_encoding.md R85). -/
def bText (r : BReg) : List Char := ['b', regDigit r]

/-- The immediate, `#0` or `#1` (30_encoding.md R85). -/
def vText (v : Bool) : List Char := ['#', if v then '1' else '0']

/-- A command line: the mnemonic, a space, the operands separated by ", "; bare with no operands (30_encoding.md R85). -/
def lineText (m : Mnemonic) (ops : List (List Char)) : List Char :=
  match ops with
  | [] => (mnemonicText m).toList
  | _ => (mnemonicText m).toList ++ ' ' :: List.intercalate [',', ' '] ops

/-- The text of a command, operands in the order D, A, B, V (30_encoding.md R85). -/
def instrText : Instr → List Char
  | .nop => lineText .nop []
  | .blNew d a => lineText .blNew [bText d, xText a]
  | .blLen d a => lineText .blLen [xText d, bText a]
  | .blBitat d a b => lineText .blBitat [xText d, bText a, xText b]
  | .blSetbit d a v => lineText .blSetbit [bText d, xText a, vText v]
  | .blCount d a => lineText .blCount [xText d, bText a]
  | .blBytes d a => lineText .blBytes [bText d, bText a]
  | .bvNew d => lineText .bvNew [bText d]
  | .bvLen d => lineText .bvLen [xText d]
  | .bvBitat d a b => lineText .bvBitat [xText d, bText a, xText b]
  | .bvSetbit d a v => lineText .bvSetbit [bText d, xText a, vText v]
  | .bvCount d a => lineText .bvCount [xText d, bText a]
  | .bvBytes d a => lineText .bvBytes [bText d, bText a]
  | .bvIndices d a => lineText .bvIndices [xText d, bText a]
  | .bvContains d a b => lineText .bvContains [xText d, bText a, bText b]
  | .bvOverlaps d a b => lineText .bvOverlaps [xText d, bText a, bText b]
  | .bvOr d a b => lineText .bvOr [bText d, bText a, bText b]
  | .bvShift d a => lineText .bvShift [bText d, xText a]

/-- Spaces at either end dropped (log entry 9). -/
def trimSpaces (cs : List Char) : List Char :=
  ((cs.dropWhile (· == ' ')).reverse.dropWhile (· == ' ')).reverse

/-- A line without its comment, which runs from `;` to the end (30_encoding.md R85). -/
def lineBody (cs : List Char) : List Char := trimSpaces (cs.takeWhile (· != ';'))

/-- The pieces of a text separated by ", " (30_encoding.md R85). -/
def splitOperands : List Char → List Char → List (List Char)
  | [], piece => [piece.reverse]
  | ',' :: ' ' :: rest, piece => piece.reverse :: splitOperands rest []
  | c :: rest, piece => splitOperands rest (c :: piece)

/-- The operands of a text; none for an empty one. -/
def operandList (cs : List Char) : List (List Char) := if cs.isEmpty then [] else splitOperands cs []

/-- The value of a digit in a base of at most 16. -/
def digitValue (base : Nat) (c : Char) : Option Nat :=
  let d :=
    if '0' ≤ c ∧ c ≤ '9' then c.toNat - 48
    else if 'a' ≤ c.toLower ∧ c.toLower ≤ 'f' then c.toLower.toNat - 87
    else 16
  if d < base then some d else none

/-- A number of at least one digit. -/
def parseDigits (base : Nat) : List Char → Option Nat
  | [] => none
  | cs => cs.foldlM (fun n c => (digitValue base c).map (n * base + ·)) 0

/-- A hex or decimal number (30_encoding.md R86). -/
def parseNat : List Char → Option Nat
  | '0' :: 'x' :: cs => parseDigits 16 cs
  | cs => parseDigits 10 cs

/-- A hex or decimal number, or a negative decimal one (30_encoding.md R86). -/
def parseInt : List Char → Option Int
  | '-' :: cs => (parseDigits 10 cs).map fun n => -(n : Int)
  | cs => (parseNat cs).map fun n => (n : Int)

/-- A register operand of the file named by a letter (30_encoding.md R85). -/
def parseReg (letter : Char) : List Char → Option (Fin 8)
  | [c, d] => if c = letter then (digitValue 8 d).map (Fin.ofNat 8) else none
  | _ => none

/-- An immediate operand (30_encoding.md R85). -/
def parseImm : List Char → Option Bool
  | ['#', '0'] => some false
  | ['#', '1'] => some true
  | _ => none

/-- A byte of an `ldbuf` line (30_encoding.md R87). -/
def parseByte (cs : List Char) : Option Byte :=
  (parseNat cs).bind fun n => if n < 256 then some (BitVec.ofNat 8 n) else none

/-- The bracketed byte list of an `ldbuf` line (30_encoding.md R87). -/
def parseBytes : List Char → Option (List Byte)
  | '[' :: cs => if cs.getLast? = some ']' then (operandList cs.dropLast).mapM parseByte else none
  | _ => none

/-- The command of a mnemonic with its operands (30_encoding.md R85). -/
def parseCommand (m : Mnemonic) (ops : List (List Char)) : Option Instr :=
  match m, ops with
  | .nop, [] => some .nop
  | .blNew, [d, a] => do return .blNew (← parseReg 'b' d) (← parseReg 'x' a)
  | .blLen, [d, a] => do return .blLen (← parseReg 'x' d) (← parseReg 'b' a)
  | .blBitat, [d, a, b] => do return .blBitat (← parseReg 'x' d) (← parseReg 'b' a) (← parseReg 'x' b)
  | .blSetbit, [d, a, v] => do return .blSetbit (← parseReg 'b' d) (← parseReg 'x' a) (← parseImm v)
  | .blCount, [d, a] => do return .blCount (← parseReg 'x' d) (← parseReg 'b' a)
  | .blBytes, [d, a] => do return .blBytes (← parseReg 'b' d) (← parseReg 'b' a)
  | .bvNew, [d] => do return .bvNew (← parseReg 'b' d)
  | .bvLen, [d] => do return .bvLen (← parseReg 'x' d)
  | .bvBitat, [d, a, b] => do return .bvBitat (← parseReg 'x' d) (← parseReg 'b' a) (← parseReg 'x' b)
  | .bvSetbit, [d, a, v] => do return .bvSetbit (← parseReg 'b' d) (← parseReg 'x' a) (← parseImm v)
  | .bvCount, [d, a] => do return .bvCount (← parseReg 'x' d) (← parseReg 'b' a)
  | .bvBytes, [d, a] => do return .bvBytes (← parseReg 'b' d) (← parseReg 'b' a)
  | .bvIndices, [d, a] => do return .bvIndices (← parseReg 'x' d) (← parseReg 'b' a)
  | .bvContains, [d, a, b] => do return .bvContains (← parseReg 'x' d) (← parseReg 'b' a) (← parseReg 'b' b)
  | .bvOverlaps, [d, a, b] => do return .bvOverlaps (← parseReg 'x' d) (← parseReg 'b' a) (← parseReg 'b' b)
  | .bvOr, [d, a, b] => do return .bvOr (← parseReg 'b' d) (← parseReg 'b' a) (← parseReg 'b' b)
  | .bvShift, [d, a] => do return .bvShift (← parseReg 'b' d) (← parseReg 'x' a)
  | _, _ => none

/-- The host access forms and pseudo-instructions (30_encoding.md R86, R87), by their lower-case name. -/
def parseHostForm (name : List Char) (rest : List Char) : Option HostLine :=
  let ops := operandList rest
  if name = "wr".toList then
    match ops with
    | [off, val] => do return .wr (← parseNat off) (← parseInt val)
    | _ => none
  else if name = "rd".toList then
    match ops with
    | [off] => do return .rd (← parseNat off)
    | _ => none
  else if name = "li".toList then
    match ops with
    | [n, val] => do return .li (← parseReg 'x' n) (← parseInt val)
    | _ => none
  else if name = "rdx".toList then
    match ops with
    | [n] => do return .rdx (← parseReg 'x' n)
    | _ => none
  else if name = "setn".toList then
    match ops with
    | [val] => do return .setn (← parseInt val)
    | _ => none
  else if name = "ldbuf".toList then
    match rest with
    | c :: d :: ',' :: ' ' :: bytes => do return .ldbuf (← parseReg 'b' [c, d]) (← parseBytes bytes)
    | _ => none
  else if name = "rdbuf".toList then
    match ops with
    | [n] => do return .rdbuf (← parseReg 'b' n)
    | _ => none
  else if name = "rdstat".toList then
    match ops with
    | [] => some .rdstat
    | _ => none
  else if name = "srst".toList then
    match ops with
    | [] => some .srst
    | _ => none
  else none

/-- The mnemonic of a command name in any letter case (30_encoding.md R85). -/
def parseMnemonic (name : List Char) : Option Mnemonic :=
  (opcodeTable.find? fun r => (mnemonicText r.mnemonic).toList.map Char.toLower == name.map Char.toLower).map (·.mnemonic)

/-- A line of a host program (30_encoding.md R85 to R87). A line that is blank or holds only a comment is none: the spec does not say
whether it is legal (DESIGN CHOICE, log entry 9). -/
def parseLine (cs : List Char) : Option HostLine :=
  let body := lineBody cs
  let name := body.takeWhile (· != ' ')
  let rest := body.drop (name.length + 1)
  match parseMnemonic name with
  | some m => (parseCommand m (operandList rest)).map .cmd
  | none => parseHostForm (name.map Char.toLower) rest

/-- A line as the assembler of a given build accepts it: it rejects an ill-formed one (30_encoding.md R87). -/
def assembleLine (build : Build) (cs : List Char) : Option HostLine :=
  (parseLine cs).filter (·.wellFormed build)

end Sys2Proof.Machine
end

