-- ==== Sys2Proof/Safety.lean ====
section
/-! DEFINITION. The terms claims about the BFU are stated in: the invariant of its state, what a command leaves unchanged, and
when a run has succeeded (70_reset_and_hazards.md R205). -/

namespace Sys2Proof.Machine

/-- CFG.VN is a legal width: 1 <= VN <= 8*MAXB (10_state.md R30). -/
def State.widthLegal (s : State) : Bool := 1 ≤ s.width && s.width ≤ 8 * s.build.maxb

/-- FCAUSE and FINFO hold 0 while FAULTED = 0, and a recorded cause while FAULTED = 1 (10_state.md R31, R32, 60_exceptions.md
R172). -/
def State.faultRecordWf (s : State) : Bool :=
  if s.faulted then s.fcause != .none else s.fcause == .none && s.finfo == 0

/-- The invariant of the unit: canonical memories, a legal width and a consistent fault record. -/
def State.inv (s : State) : Bool := Memory.wf s && s.widthLegal && s.faultRecordWf

/-- The control state a command never writes: the build, CFG (30_encoding.md R94), the fault record while it does not fault, and
the port. -/
def sameControl (s t : State) : Prop :=
  t.build = s.build ∧ t.vn = s.vn ∧ t.faulted = s.faulted ∧ t.fcause = s.fcause ∧ t.finfo = s.finfo ∧
    t.requests = s.requests ∧ t.responses = s.responses

/-- The index memory and IDXCNT are unchanged. -/
def sameListing (s t : State) : Prop := t.idxCnt = s.idxCnt ∧ ∀ k, t.readIdx k = s.readIdx k

/-- A buffer keeps its length and every byte. -/
def sameBuffer (b : BReg) (s t : State) : Prop :=
  (t.readBuf b).length = (s.readBuf b).length ∧ ∀ i, t.bufByte b i = s.bufByte b i

/-- What a command completes with (30_encoding.md R95): SEQ counts it and LMERR tells its outcome. -/
def completes (lengthMismatch : Bool) (s t : State) : Prop := t.seq = s.seq + 1 ∧ t.lmerr = lengthMismatch

/-- Everything but LMERR and SEQ is unchanged: every register, every byte of every buffer, the listing, and the control state. -/
def changesNoData (s t : State) : Prop :=
  (∀ r, t.readX r = s.readX r) ∧ (∀ b, sameBuffer b s t) ∧ sameListing s t ∧ sameControl s t

/-- Everything but x[d], LMERR and SEQ is unchanged. -/
def changesOnlyX (d : XReg) (s t : State) : Prop :=
  (∀ r, r ≠ d → t.readX r = s.readX r) ∧ (∀ b, sameBuffer b s t) ∧ sameListing s t ∧ sameControl s t

/-- Everything but buf[d], LMERR and SEQ is unchanged. -/
def changesOnlyBuf (d : BReg) (s t : State) : Prop :=
  (∀ r, t.readX r = s.readX r) ∧ (∀ b, b ≠ d → sameBuffer b s t) ∧ sameListing s t ∧ sameControl s t

/-- Everything but x[d], the index memory, IDXCNT, LMERR and SEQ is unchanged. -/
def changesOnlyListing (d : XReg) (s t : State) : Prop :=
  (∀ r, r ≠ d → t.readX r = s.readX r) ∧ (∀ b, sameBuffer b s t) ∧ sameControl s t

/-- The control registers and their offsets (10_state.md R27). -/
def controlOffsets : List (Nat × MmioReg) :=
  [(0x00, .id), (0x08, .param), (0x10, .cfg), (0x18, .status), (0x20, .cmd), (0x28, .seq), (0x30, .finfo),
    (0x38, .ctrl), (0x40, .idxCnt)]

/-- An access that gets BUSERR: not 8 bytes wide, misaligned (20_memory.md R56), or in a range R53 marks unmapped (R57). -/
def illegalAccess (build : Build) (off bytes : Nat) : Prop :=
  bytes ≠ 8 ∨ off % 8 ≠ 0 ∨ (0x48 ≤ off ∧ off < 0x100) ∨ (0x140 ≤ off ∧ off < 0x200) ∨
    (0x240 ≤ off ∧ off < 0x1000) ∨ (0x1000 + 8 * build.maxb ≤ off ∧ off < 0x10000) ∨
    0x10000 + 64 * build.maxb ≤ off

/-- A fault leaves everything as before the command, plus the fault record (60_exceptions.md R171, R180). -/
def faultsWith (cause : FaultCause) (w : Word) (s t : State) : Prop :=
  t.faulted = true ∧ t.fcause = cause ∧ t.finfo = w ∧ t.seq = s.seq ∧ t.lmerr = s.lmerr ∧
    (∀ r, t.readX r = s.readX r) ∧ (∀ b, sameBuffer b s t) ∧ sameListing s t ∧
    t.build = s.build ∧ t.vn = s.vn ∧ t.requests = s.requests ∧ t.responses = s.responses

/-- n is the logical length of a bitlist (40_bitlist.md R100, R108 law 6): 0 for the empty sequence; otherwise the position of its
highest set bit, which lies in its last byte. Only a well-formed bitlist has one. -/
def bitlistLength (bytes : List Byte) (n : Nat) : Prop :=
  (bytes = [] ∧ n = 0) ∨
    (n / 8 + 1 = bytes.length ∧ getBit bytes n = true ∧ ∀ p, n < p → getBit bytes p = false)

/-- A malformed bitlist: not empty, and its last byte is 0 (40_bitlist.md R100). -/
def malformed (bytes : List Byte) : Prop := bytes.getLast? = some 0

/-- The number of set positions below n. -/
def bitsBelow (bytes : List Byte) (n : Nat) : Nat := (List.range n).countP (getBit bytes)

/-- The two operands of a set-algebra command have different byte lengths (42_bitvector_setalgebra.md R140). -/
def operandsMismatch (s : State) : Instr → Bool
  | .bvContains _ a b => (s.readBuf a).length != (s.readBuf b).length
  | .bvOverlaps _ a b => (s.readBuf a).length != (s.readBuf b).length
  | .bvOr _ a b => (s.readBuf a).length != (s.readBuf b).length
  | _ => false

/-- The place of logical position p of an L-byte sequence in the value BV.SHIFT shifts (42_bitvector_setalgebra.md R145, R146): p
itself in LE order; in BE order the bit of the same number in the byte counted from the other end. -/
def valuePosition (order : ShiftOrder) (len p : Nat) : Nat :=
  match order with
  | .le => p
  | .be => 8 * (len - 1 - p / 8) + p % 8

/-- No bit at or above position N: a tail-clean bitvector (41_bitvector.md R128). -/
def State.tailClean (s : State) (bytes : List Byte) : Prop := ∀ p, s.width ≤ p → getBit bytes p = false

/-- BL.BITAT of buf[b] returns 1 for the index p, whatever registers carry the index and the result (40_bitlist.md R103). -/
def bitlistReadsOne (s : State) (b : BReg) (p : Nat) : Prop :=
  ∀ e a : XReg, ∃ t, exec (.blBitat e b a) (s.writeX a (zext64 p)) = .next t ∧ t.readX e = 1

/-- BV.BITAT of buf[b] returns 1 for the index p, whatever registers carry the index and the result (41_bitvector.md R122). -/
def bitvectorReadsOne (s : State) (b : BReg) (p : Nat) : Prop :=
  ∀ e a : XReg, ∃ t, exec (.bvBitat e b a) (s.writeX a (zext64 p)) = .next t ∧ t.readX e = 1

/-- The laws of the bitlist commands, in one state (40_bitlist.md R108). -/
structure BitlistLaws (s : State) : Prop where
  /-- Law 1: BL.LEN after BL.NEW of n returns n. -/
  newThenLength : ∀ (d : BReg) (a e : XReg), (s.readX a).toNat ≤ 8 * s.build.maxb - 1 →
    ∃ t u, exec (.blNew d a) s = .next t ∧ exec (.blLen e d) t = .next u ∧ u.readX e = s.readX a
  /-- Law 2: below the length BL.BITAT reads what BL.SETBIT wrote, and no other bit changes. -/
  readAfterWrite : ∀ (d : BReg) (a e : XReg) (v : Bool) (n : Nat), bitlistLength (s.readBuf d) n → (s.readX a).toNat < n →
    ∃ t u, exec (.blSetbit d a v) s = .next t ∧ exec (.blBitat e d a) t = .next u ∧
      u.readX e = (if v then 1 else 0) ∧
      ∀ p, p ≠ (s.readX a).toNat → getBit (t.readBuf d) p = getBit (s.readBuf d) p
  /-- Law 3: at or past the length BL.BITAT returns 0 and BL.SETBIT with #1 leaves the buffer. -/
  pastTheLength : ∀ (d : BReg) (a e : XReg) (n : Nat), bitlistLength (s.readBuf d) n → n ≤ (s.readX a).toNat →
    ∃ t u, exec (.blBitat e d a) s = .next t ∧ t.readX e = 0 ∧
      exec (.blSetbit d a true) s = .next u ∧ u.readBuf d = s.readBuf d
  /-- Law 4: BL.COUNT returns the number of indexes below the length for which BL.BITAT returns 1. -/
  countOfReads : ∀ (d : XReg) (a : BReg) (n : Nat), bitlistLength (s.readBuf a) n →
    ∃ t, exec (.blCount d a) s = .next t ∧
      ∃ P : List Nat, P.Pairwise (· < ·) ∧ (∀ p, p ∈ P ↔ p < n ∧ bitlistReadsOne s a p) ∧ (t.readX d).toNat = P.length
  /-- Law 5: BL.BYTES of a sentinel-only bitlist is empty. -/
  sentinelOnlyExport : ∀ (d a : BReg) (n : Nat), bitlistLength (s.readBuf a) n →
    (∀ p, p < n → getBit (s.readBuf a) p = false) → ∃ t, exec (.blBytes d a) s = .next t ∧ t.readBuf d = []
  /-- Law 6: the length is the position of the highest set bit. -/
  lengthIsHighestBit : ∀ (d : XReg) (a : BReg), ¬ malformed (s.readBuf a) → s.readBuf a ≠ [] →
    ∃ t, exec (.blLen d a) s = .next t ∧ getBit (s.readBuf a) (t.readX d).toNat = true ∧
      ∀ p, (t.readX d).toNat < p → getBit (s.readBuf a) p = false
  /-- Law 6: the sentinel's location is an exact function of the length. -/
  sentinelFromLength : ∀ (a b : BReg) (n : Nat), s.readBuf a ≠ [] → s.readBuf b ≠ [] →
    bitlistLength (s.readBuf a) n → bitlistLength (s.readBuf b) n →
    (s.readBuf a).length = (s.readBuf b).length ∧ ∀ p, n ≤ p → getBit (s.readBuf a) p = getBit (s.readBuf b) p
  /-- Law 6: no BL command but BL.NEW and BL.BYTES changes a buffer's length or sentinel. -/
  sentinelKept : ∀ (i : Instr) (t : State),
    (match i with
      | .blLen .. | .blBitat .. | .blSetbit .. | .blCount .. => True
      | _ => False) →
    exec i s = .next t → ∀ b, (t.readBuf b).length = (s.readBuf b).length ∧
      ∀ n, bitlistLength (s.readBuf b) n → bitlistLength (t.readBuf b) n

/-- The laws of the bitvector access commands, in one state (41_bitvector.md R129). -/
structure BitvectorLaws (s : State) : Prop where
  /-- Law 1: BV.LEN returns N. -/
  lengthIsWidth : ∀ d : XReg, ∃ t, exec (.bvLen d) s = .next t ∧ (t.readX d).toNat = s.width
  /-- Law 2: below N BV.BITAT reads what BV.SETBIT wrote in an addressable buffer, and no other bit changes. -/
  readAfterWrite : ∀ (d : BReg) (a e : XReg) (v : Bool), s.addressable (s.readBuf d) = true → (s.readX a).toNat < s.width →
    ∃ t u, exec (.bvSetbit d a v) s = .next t ∧ exec (.bvBitat e d a) t = .next u ∧
      u.readX e = (if v then 1 else 0) ∧
      ∀ p, p ≠ (s.readX a).toNat → getBit (t.readBuf d) p = getBit (s.readBuf d) p
  /-- Laws 3 and 5: on an addressable, tail-clean buffer BV.INDICES lists exactly the indexes below N for which BV.BITAT returns
  1, in ascending order, and BV.COUNT is their number, as is the k of BV.INDICES. -/
  countAndListing : ∀ (d e : XReg) (a : BReg), s.addressable (s.readBuf a) = true → s.tailClean (s.readBuf a) →
    ∃ t u, exec (.bvCount d a) s = .next t ∧ exec (.bvIndices e a) s = .next u ∧
      ∃ P : List Nat, P.Pairwise (· < ·) ∧ (∀ p, p ∈ P ↔ p < s.width ∧ bitvectorReadsOne s a p) ∧
        (t.readX d).toNat = P.length ∧ u.readX e = t.readX d ∧ u.idxCnt = t.readX d ∧
        ∀ k, (u.readIdx k).toNat = P.getD k 0
  /-- Law 4: BV.BYTES gives at most B bytes. -/
  exportBounded : ∀ d a : BReg, ∃ t, exec (.bvBytes d a) s = .next t ∧ (t.readBuf d).length ≤ s.byteWidth

/-- The data of the read responses, in order: with the final state, a run's observation (70_reset_and_hazards.md R205). -/
def State.observedReads (s : State) : List HostResponse :=
  s.responses.filter fun r => match r with
    | .read _ _ => true
    | .write _ => false

/-- A run has ended: the BFU has served its last event (70_reset_and_hazards.md R205). -/
def State.runEnded (s : State) : Bool := s.requests.isEmpty

/-- A run's end is successful: it has ended and is not faulted (70_reset_and_hazards.md R205). -/
def State.runSucceeded (s : State) : Bool := s.runEnded && !s.faulted

/-- The run of a finite sequence of port events from the reset state of a build (70_reset_and_hazards.md R205). -/
def runFromReset (build : Build) (events : List HostEvent) : Host.Outcome State Fault Refusal :=
  Host.Core.run Sys2Proof.core events.length { State.resetOf build with requests := events }

end Sys2Proof.Machine
end

