-- ==== Sys2Proof/Certificates/Slice0/Obligations.lean ====
section
/-! DEFINITION. The statements for the provers, one `def Obligations.<Name> : Prop` each; OBLIGATIONS.json lists them. -/

open Sys2Proof Sys2Proof.Machine

/-! ## Encoding -/

/-- 30_encoding.md section 3: decoding the word of a command gives the command, for every operand. -/
def Obligations.DecodeInvertsEncode : Prop :=
  ∀ i : Instr, decode (cmdValue i) = .ok i

/-- 30_encoding.md sections 1 and 3: a written value that decodes to a command is that command's one word, so no bit of it is
dropped. -/
def Obligations.EveryCommandHasOneWord : Prop :=
  ∀ (w : Word) (i : Instr), decode w = .ok i → w = cmdValue i

/-- R83: a written value is exactly one row of the table or ILLEGAL_CMD, and no two rows overlap. -/
def Obligations.DecodingIsTotalAndUnambiguous : Prop :=
  (∀ r ∈ opcodeTable, fieldOpc r.mask = 0xFF ∧ ∀ q ∈ opcodeTable, r ≠ q → fieldOpc r.code ≠ fieldOpc q.code) ∧
  (∀ (c : CmdWord) (r q : Row), r ∈ opcodeTable → q ∈ opcodeTable →
    c &&& r.mask = r.code → c &&& q.mask = q.code → r = q) ∧
  ∀ w : Word,
    (w.extractLsb' 32 32 = 0 ∧ ∃ r ∈ opcodeTable, w.extractLsb' 0 32 &&& r.mask = r.code ∧
      decode w = .ok (r.mnemonic.instr (w.extractLsb' 0 32))) ∨
    ((w.extractLsb' 32 32 ≠ 0 ∨ ∀ r ∈ opcodeTable, w.extractLsb' 0 32 &&& r.mask ≠ r.code) ∧
      ∃ e, decode w = .error e)

/-- R80: the opcode space. The reserved opcodes and 0x00 decode to nothing, whatever the other bits; the rest belong to their
family. -/
def Obligations.OpcodeSpaceIsAsMapped : Prop :=
  ∀ w : Word,
    let opc := (w.extractLsb' 0 8).toNat
    (opc = 0x00 ∨ (0x02 ≤ opc ∧ opc ≤ 0x0F) ∨ (0x16 ≤ opc ∧ opc ≤ 0x1F) ∨ 0x2B ≤ opc → ∃ e, decode w = .error e) ∧
    ∀ i, decode w = .ok i →
      match i with
      | .nop => opc = 0x01
      | .blNew .. | .blLen .. | .blBitat .. | .blSetbit .. | .blCount .. | .blBytes .. => 0x10 ≤ opc ∧ opc ≤ 0x15
      | _ => 0x20 ≤ opc ∧ opc ≤ 0x2A

/-- 95_test_vectors.md: words written out from the encoding table decode to the commands they stand for. -/
def Obligations.WrittenOutWordsDecode : Prop :=
  decode 0x00000001 = .ok .nop ∧ decode 0x00102013 = .ok (.blSetbit 0 2 true) ∧
  decode 0x00020612 = .ok (.blBitat 6 0 2) ∧ decode 0x00001526 = .ok (.bvIndices 5 1) ∧
  decode 0x00067729 = .ok (.bvOr 7 7 6) ∧ decode 0x0000532A = .ok (.bvShift 3 5)

/-! ## The step and the command stream

A host access is an event of `requests` and its answer an entry of `responses` (log entry 2). -/

/-- 30_encoding.md section 5: when the port's next event is a CMD write whose value decodes to a command and the unit is not
faulted, the step is the command's execution, the event taken and answered OKAY. -/
def Obligations.StepRunsDecodedCommand : Prop :=
  ∀ (s : State) (w : Word) (rest : List HostEvent) (i : Instr),
    s.requests = .write 0x0020 8 w :: rest → s.faulted = false → decode w = .ok i →
    step s = exec i { s with requests := rest, responses := s.responses ++ [.write .okay] }

/-- R92: while FAULTED = 1 a CMD write is dropped; the only change is that the port has answered it. -/
def Obligations.FaultedUnitDropsCommands : Prop :=
  ∀ (s : State) (w : Word) (rest : List HostEvent),
    s.requests = .write 0x0020 8 w :: rest → s.faulted = true →
    step s = .next { s with requests := rest, responses := s.responses ++ [.write .okay] }

/-- 60_exceptions.md section 2: a CMD write of a value that is no command enters the fault state with ILLEGAL_CMD and records the
whole value. -/
def Obligations.IllegalCommandFaults : Prop :=
  ∀ (s : State) (w : Word) (rest : List HostEvent) (e : DecodeError),
    s.requests = .write 0x0020 8 w :: rest → s.faulted = false → decode w = .error e →
    ∃ t, step s = .next t ∧
      faultsWith .illegalCmd w { s with requests := rest, responses := s.responses ++ [.write .okay] } t

/-- R95: every command either faults, or completes; then SEQ counts it and LMERR says whether its operands' lengths differed.
(What FINFO holds after a fault is FaultEntryIsPrecise's.) -/
def Obligations.CompletionWritesFlagAndCounter : Prop :=
  ∀ (i : Instr) (s : State),
    (∃ t c w, exec i s = .next t ∧ c ≠ .none ∧ faultsWith c w s t) ∨
    (∃ t, exec i s = .next t ∧ completes (operandsMismatch s i) s t ∧ sameControl s t)

/-- R171: a step that takes an unfaulted unit to the faulted state is a CMD write, records its full value and a cause, and changes
nothing else but the port. -/
def Obligations.FaultEntryIsPrecise : Prop :=
  ∀ s t : State, step s = .next t → s.faulted = false → t.faulted = true →
    ∃ w rest, s.requests = .write 0x0020 8 w :: rest ∧ t.fcause ≠ .none ∧
      t = { s with
            faulted := true, fcause := t.fcause, finfo := w
            requests := rest, responses := s.responses ++ [.write .okay] }

/-- 60_exceptions.md section 4: only the hardware reset or a CTRL write with bit 0 = 1 leaves the faulted state. -/
def Obligations.OnlyResetLeavesFault : Prop :=
  ∀ s t : State, step s = .next t → s.faulted = true → t.faulted = false →
    ∃ rest, s.requests = .rst :: rest ∨ ∃ v : Word, v.getLsbD 0 = true ∧ s.requests = .write 0x0038 8 v :: rest

/-- 10_state.md section 3: a step that changes IDXCNT or an index entry is a BV.INDICES command or a reset. -/
def Obligations.OnlyIndicesAndResetWriteListing : Prop :=
  ∀ s t : State, step s = .next t → ¬ sameListing s t →
    ∃ rest, s.requests = .rst :: rest ∨
      (∃ v : Word, v.getLsbD 0 = true ∧ s.requests = .write 0x0038 8 v :: rest) ∨
      ∃ d a, s.requests = .write 0x0020 8 (cmdValue (.bvIndices d a)) :: rest

/-- 10_state.md sections 5 and 6: a step that changes CFG.VN is a legal CFG write or a reset, and none changes the build. -/
def Obligations.OnlyHostAndResetWriteWidth : Prop :=
  ∀ s t : State, step s = .next t → t.build = s.build ∧
    (t.vn ≠ s.vn →
      ∃ rest, s.requests = .rst :: rest ∨
        (∃ v : Word, v.getLsbD 0 = true ∧ s.requests = .write 0x0038 8 v :: rest) ∨
        ∃ v : Word, s.requests = .write 0x0010 8 v :: rest ∧ t.vn = v.setWidth 32 ∧
          1 ≤ (v.setWidth 32).toNat ∧ (v.setWidth 32).toNat ≤ 8 * s.build.maxb)

/-- R34: SEQ is 0 at reset, read at 0x0028, where writes are ignored; a CMD write that completes a command adds 1 to it modulo
2^64, and one that faults or is dropped leaves it. -/
def Obligations.SeqCountsCompletedCommands : Prop :=
  (∀ build, (State.resetOf build).seq = 0) ∧
  (∀ (s : State) (rest : List HostEvent), s.requests = .read 0x0028 8 :: rest →
    step s = .next { s with requests := rest, responses := s.responses ++ [.read .okay s.seq] }) ∧
  (∀ (s : State) (v : Word) (rest : List HostEvent), s.requests = .write 0x0028 8 v :: rest →
    step s = .next { s with requests := rest, responses := s.responses ++ [.write .okay] }) ∧
  ∀ (s : State) (w : Word) (rest : List HostEvent), s.requests = .write 0x0020 8 w :: rest →
    ∃ t, step s = .next t ∧
      (s.faulted = false → t.faulted = false → t.seq.toNat = (s.seq.toNat + 1) % 2 ^ 64) ∧
      (s.faulted = true ∨ t.faulted = true → t.seq = s.seq)

/-- 10_state.md section 9 and the rules it rests on: canonical memories, a legal width and a consistent fault record are kept by
every step. -/
def Obligations.StepKeepsInvariant : Prop :=
  ∀ s t : State, s.inv = true → step s = .next t → t.inv = true

/-- The reset state of every build has the invariant. -/
def Obligations.ResetHasInvariant : Prop :=
  ∀ build : Build, (State.resetOf build).inv = true

/-- 70_reset_and_hazards.md section 5 and 20_memory.md section 4, over the event queue of log entry 2: every run of n port events
is served in n steps, from every state, each access answered once and every answer kept. That RST takes one step and has no
response is log entry 11. -/
def Obligations.RunServesEveryEvent : Prop :=
  ∀ s : State, ∃ t, Host.Core.run Sys2Proof.core s.requests.length s = .next t ∧ t.runEnded = true ∧
    ∃ answers, t.responses = s.responses ++ answers ∧
      answers.length = (s.requests.filter fun e => e != .rst).length

/-! ## Reset -/

/-- R39: the value of every piece of state after reset, the constants ID and PARAM, and CMD and CTRL reading 0; an empty
buffer is a well-formed bitlist of length 0, and no bitvector, because B is never 0. -/
def Obligations.ResetValues : Prop :=
  (∀ s : State, s.widthLegal = true → s.byteWidth ≠ 0) ∧
  ∀ build : Build,
    let s := State.resetOf build
    (∀ r, s.readX r = 0) ∧ (∀ b, (s.readBuf b).length = 0) ∧ (∀ b i, s.bufByte b i = 0) ∧ (∀ k, s.readIdx k = 0) ∧
    s.readReg .idxCnt = 0 ∧ s.readReg .cfg = 16 ∧ s.readReg .status = 0 ∧ s.readReg .finfo = 0 ∧ s.readReg .seq = 0 ∧
    s.readReg .id = 0x0000000746544942 ∧
    (s.readReg .param).toNat =
      build.maxb + 8 * 2 ^ 16 + 8 * 2 ^ 20 + (if build.shiftOrder = .le then 2 ^ 24 else 0) ∧
    s.readReg .cmd = 0 ∧ s.readReg .ctrl = 0 ∧
    ∀ b, bitlistLength (s.readBuf b) 0 ∧ s.addressable (s.readBuf b) = false

/-- 70_reset_and_hazards.md section 1: the hardware reset and a CTRL write with bit 0 = 1 set every piece of state to its reset value, faulted or not; the build is
unaffected, and the CTRL write is answered OKAY. That events not yet served and responses stay is the model's choice (log entry 6). -/
def Obligations.BothResetsRestoreResetState : Prop :=
  ∀ (s : State) (rest : List HostEvent),
    (s.requests = .rst :: rest →
      step s = .next { State.resetOf s.build with requests := rest, responses := s.responses }) ∧
    (∀ v : Word, s.requests = .write 0x0038 8 v :: rest → v.getLsbD 0 = true →
      step s = .next { State.resetOf s.build with
        requests := rest, responses := s.responses ++ [.write .okay] })

/-! ## The host port -/

/-- 20_memory.md section 4: a read changes nothing but the port; a legal one is answered OKAY with the register's value, any other
BUSERR with data 0. STATUS, CFG, SEQ, FINFO and IDXCNT read their fields, and CMD and CTRL read 0. -/
def Obligations.ReadsHaveNoSideEffect : Prop :=
  ∀ (s : State) (off : Offset) (bytes : Nat) (rest : List HostEvent), s.requests = .read off bytes :: rest →
    ∃ r, step s = .next { s with requests := rest, responses := s.responses ++ [r] } ∧
      (illegalAccess s.build off.toNat bytes → r = .read .busErr 0) ∧
      (bytes = 8 →
        (∀ reg, (off.toNat, reg) ∈ controlOffsets → r = .read .okay (s.readReg reg)) ∧
        (off.toNat = 0x00 → r = .read .okay 0x0000000746544942) ∧
        (off.toNat = 0x10 → r = .read .okay (s.vn.setWidth 64)) ∧
        (off.toNat = 0x18 → r = .read .okay s.status) ∧
        (off.toNat = 0x20 ∨ off.toNat = 0x38 → r = .read .okay 0) ∧
        (off.toNat = 0x28 → r = .read .okay s.seq) ∧
        (off.toNat = 0x30 → r = .read .okay s.finfo) ∧
        (off.toNat = 0x40 → r = .read .okay s.idxCnt) ∧
        (∀ x : XReg, off.toNat = 0x100 + 8 * x.val → r = .read .okay (s.readX x)) ∧
        (∀ b : BReg, off.toNat = 0x200 + 8 * b.val → r = .read .okay (zext64 (s.readBuf b).length)) ∧
        (∀ (b : BReg) (j : Nat), j < s.build.maxb / 8 → off.toNat = 0x1000 + b.val * s.build.maxb + 8 * j →
          r = .read .okay (s.bufWord b j)) ∧
        (∀ k : Nat, k < 8 * s.build.maxb → off.toNat = 0x10000 + 8 * k → r = .read .okay (s.readIdx k)))

/-- 20_memory.md section 4: a write that is not 8 bytes wide, misaligned or at an unmapped offset gets BUSERR and has no effect. -/
def Obligations.IllegalWriteHasNoEffect : Prop :=
  ∀ (s : State) (off : Offset) (bytes : Nat) (v : Word) (rest : List HostEvent),
    s.requests = .write off bytes v :: rest → illegalAccess s.build off.toNat bytes →
    step s = .next { s with requests := rest, responses := s.responses ++ [.write .busErr] }

/-- 20_memory.md section 4: a write of a read-only register, and of CTRL with bit 0 = 0, is answered OKAY and ignored. -/
def Obligations.ReadOnlyWritesAreIgnored : Prop :=
  ∀ (s : State) (off : Offset) (v : Word) (rest : List HostEvent), s.requests = .write off 8 v :: rest →
    (off.toNat ∈ [0x00, 0x08, 0x18, 0x28, 0x30, 0x40] ∨ (off.toNat = 0x38 ∧ v.getLsbD 0 = false) ∨
      ∃ k, k < 8 * s.build.maxb ∧ off.toNat = 0x10000 + 8 * k) →
    step s = .next { s with requests := rest, responses := s.responses ++ [.write .okay] }

/-- 10_state.md section 6 (STATUS): FAULTED, LMERR, BUSY hardwired 0 and FCAUSE at their bits, every other bit 0;
60_exceptions.md section 2: the four cause codes. -/
def Obligations.StatusWordLayout : Prop :=
  ∀ s : State, s.status.getLsbD 0 = s.faulted ∧ s.status.getLsbD 1 = s.lmerr ∧ s.status.getLsbD 2 = false ∧
    s.status.extractLsb' 8 8 = s.fcause.code ∧ s.status.extractLsb' 3 5 = 0 ∧ s.status.extractLsb' 16 48 = 0 ∧
    FaultCause.none.code = 0x00 ∧ FaultCause.illegalCmd.code = 0x01 ∧ FaultCause.capacity.code = 0x02 ∧
    FaultCause.malformedBitlist.code = 0x03

/-- R58: a read of BUFDATA word j returns, as its byte k, data byte 8j + k of the buffer, 0 at or beyond the length. -/
def Obligations.BufferWordPacksLittleEndian : Prop :=
  ∀ (s : State) (b : BReg) (j : Nat) (off : Offset) (rest : List HostEvent),
    j < s.build.maxb / 8 → off.toNat = 0x1000 + b.val * s.build.maxb + 8 * j → s.requests = .read off 8 :: rest →
    ∃ v, step s = .next { s with requests := rest, responses := s.responses ++ [.read .okay v] } ∧
      ∀ k, k < 8 → v.extractLsb' (8 * k) 8 = s.bufByte b (8 * j + k) ∧
        ((s.readBuf b).length ≤ 8 * j + k → v.extractLsb' (8 * k) 8 = 0)

/-- 20_memory.md section 4: a BUFDATA write replaces the bytes of its word that lie below the length, and nothing else. -/
def Obligations.BufferDataWriteMergesWord : Prop :=
  ∀ (s : State) (b : BReg) (j : Nat) (off : Offset) (v : Word) (rest : List HostEvent),
    j < s.build.maxb / 8 → off.toNat = 0x1000 + b.val * s.build.maxb + 8 * j →
    s.requests = .write off 8 v :: rest →
    ∃ t, step s = .next { t with requests := rest, responses := s.responses ++ [.write .okay] } ∧
      changesOnlyBuf b s t ∧ t.seq = s.seq ∧ t.lmerr = s.lmerr ∧
      (t.readBuf b).length = (s.readBuf b).length ∧
      ∀ i, t.bufByte b i =
        if i < (s.readBuf b).length ∧ i / 8 = j then v.extractLsb' (8 * (i % 8)) 8 else s.bufByte b i

/-- R60: a read of BLEN gives the length; a write of v <= MAXB sets it, with the bytes cut off cleared and the bytes exposed 0; a larger v
is ignored; BLEN is 0 at reset. -/
def Obligations.BufferLengthReadAndWrite : Prop :=
  (∀ build b, (State.resetOf build).readReg (.blen b) = 0) ∧
  (∀ (s : State) (b : BReg) (off : Offset) (rest : List HostEvent),
    off.toNat = 0x200 + 8 * b.val → s.requests = .read off 8 :: rest →
    step s = .next { s with
      requests := rest, responses := s.responses ++ [.read .okay (zext64 (s.readBuf b).length)] }) ∧
  ∀ (s : State) (b : BReg) (off : Offset) (v : Word) (rest : List HostEvent),
    off.toNat = 0x200 + 8 * b.val → s.requests = .write off 8 v :: rest →
    ∃ t, step s = .next { t with requests := rest, responses := s.responses ++ [.write .okay] } ∧
      t.seq = s.seq ∧ t.lmerr = s.lmerr ∧
      if v.toNat ≤ s.build.maxb then
        changesOnlyBuf b s t ∧ (t.readBuf b).length = v.toNat ∧
          ∀ i, t.bufByte b i = if i < v.toNat then s.bufByte b i else 0
      else changesNoData s t

/-- 10_state.md section 6 (CFG): a host write takes bits 31:0 when they are a legal width and is ignored otherwise. -/
def Obligations.ConfigWriteIsChecked : Prop :=
  ∀ (s : State) (v : Word) (rest : List HostEvent), s.requests = .write 0x0010 8 v :: rest →
    step s = .next { s with
      vn := if 1 ≤ v.toNat % 2 ^ 32 ∧ v.toNat % 2 ^ 32 ≤ 8 * s.build.maxb then BitVec.ofNat 32 v.toNat else s.vn
      requests := rest, responses := s.responses ++ [.write .okay] }

/-- 20_memory.md section 4 and 60_exceptions.md section 4: a write of xi is served whether or not the unit is faulted, and changes
xi alone. -/
def Obligations.ScalarWriteIsServed : Prop :=
  ∀ (s : State) (r : XReg) (off : Offset) (v : Word) (rest : List HostEvent),
    off.toNat = 0x100 + 8 * r.val → s.requests = .write off 8 v :: rest →
    ∃ t, step s = .next { t with requests := rest, responses := s.responses ++ [.write .okay] } ∧
      changesOnlyX r s t ∧ t.seq = s.seq ∧ t.lmerr = s.lmerr ∧ t.readX r = v

/-- 30_encoding.md section 4 (ldbuf): the accesses of `ldbuf` load its bytes into the buffer and change nothing else. -/
def Obligations.LoadBufferLoadsItsBytes : Prop :=
  ∀ (s : State) (b : BReg) (bytes : List Byte), s.requests = [] → bytes.length ≤ s.build.maxb →
    ∃ t, Host.Core.run Sys2Proof.core (ceilDiv bytes.length 8 + 1) (s.issueLine (.ldbuf b bytes)) =
        .next { t with responses := s.responses ++ List.replicate (ceilDiv bytes.length 8 + 1) (.write .okay) } ∧
      t.readBuf b = bytes ∧ changesOnlyBuf b s t ∧ t.seq = s.seq ∧ t.lmerr = s.lmerr

/-! ## NOP -/

/-- 43_system.md (NOP): no data is read or written; SEQ counts it and LMERR is cleared. -/
def Obligations.NopOnlyCompletes : Prop :=
  ∀ s : State, ∃ t, exec .nop s = .next t ∧ completes false s t ∧ changesNoData s t

/-! ## Bitlists -/

/-- 40_bitlist.md section 2 (BL.NEW): for n that fits, buf[d] becomes floor(n/8)+1 bytes whose one set bit is the sentinel at
position n. -/
def Obligations.NewBitlistHoldsOnlyItsSentinel : Prop :=
  ∀ (s : State) (d : BReg) (a : XReg), (s.readX a).toNat ≤ 8 * s.build.maxb - 1 →
    ∃ t, exec (.blNew d a) s = .next t ∧ completes false s t ∧ changesOnlyBuf d s t ∧
      (t.readBuf d).length = (s.readX a).toNat / 8 + 1 ∧
      ∀ p, getBit (t.readBuf d) p = decide (p = (s.readX a).toNat)

/-- R175: BL.NEW faults with CAPACITY exactly when x[a] > 8*MAXB - 1; no other command records that cause. (What FINFO holds is
FaultEntryIsPrecise's.) -/
def Obligations.CapacityFaultsOnlyInNewBitlist : Prop :=
  (∀ (s : State) (d : BReg) (a : XReg), 8 * s.build.maxb - 1 < (s.readX a).toNat →
    ∃ t w, exec (.blNew d a) s = .next t ∧ faultsWith .capacity w s t) ∧
  (∀ (s t : State) (i : Instr), exec i s = .next t → t.fcause = .capacity → s.fcause ≠ .capacity →
    ∃ d a, i = .blNew d a ∧ 8 * s.build.maxb - 1 < (s.readX a).toNat)

/-- R101: on a malformed operand BL.BITAT, BL.SETBIT, BL.LEN, BL.BYTES and BL.COUNT fault with MALFORMED_BITLIST and write nothing;
BL.NEW never does. (What FINFO holds is FaultEntryIsPrecise's.) -/
def Obligations.MalformedBitlistFaults : Prop :=
  (∀ (s : State) (i : Instr) (b : BReg), malformed (s.readBuf b) →
    ((∃ d x, i = .blBitat d b x) ∨ (∃ x v, i = .blSetbit b x v) ∨ (∃ d, i = .blLen d b) ∨ (∃ d, i = .blBytes d b) ∨
      (∃ d, i = .blCount d b)) →
    ∃ t w, exec i s = .next t ∧ faultsWith .malformedBitlist w s t) ∧
  (∀ (s t : State) (d : BReg) (a : XReg), exec (.blNew d a) s = .next t → s.fcause ≠ .malformedBitlist →
    t.fcause ≠ .malformedBitlist)

/-- 40_bitlist.md section 2 (BL.LEN) and section 3 law 6: for a well-formed bitlist x[d] is the position of its highest set bit, 0 for
the empty one. -/
def Obligations.BitlistLengthIsSentinelPosition : Prop :=
  ∀ (s : State) (d : XReg) (a : BReg), Memory.wf s = true → ¬ malformed (s.readBuf a) →
    ∃ t, exec (.blLen d a) s = .next t ∧ completes false s t ∧ changesOnlyX d s t ∧
      bitlistLength (s.readBuf a) (t.readX d).toNat

/-- 40_bitlist.md section 2 (BL.BITAT): the data bit for an index below the length, 0 from the sentinel on. -/
def Obligations.BitlistBitReadStopsAtSentinel : Prop :=
  ∀ (s : State) (d : XReg) (a : BReg) (b : XReg) (n : Nat), bitlistLength (s.readBuf a) n →
    ∃ t, exec (.blBitat d a b) s = .next t ∧ completes false s t ∧ changesOnlyX d s t ∧
      t.readX d = if (s.readX b).toNat < n ∧ getBit (s.readBuf a) (s.readX b).toNat = true then 1 else 0

/-- 40_bitlist.md section 2 (BL.SETBIT): below the length the addressed bit takes V; every other bit, the sentinel and the length are
unchanged; at or past the length nothing changes. -/
def Obligations.BitlistBitWriteTouchesOneBit : Prop :=
  ∀ (s : State) (d : BReg) (a : XReg) (v : Bool) (n : Nat), bitlistLength (s.readBuf d) n →
    ∃ t, exec (.blSetbit d a v) s = .next t ∧ completes false s t ∧ changesOnlyBuf d s t ∧
      (t.readBuf d).length = (s.readBuf d).length ∧ bitlistLength (t.readBuf d) n ∧
      ∀ p, getBit (t.readBuf d) p =
        if p = (s.readX a).toNat ∧ p < n then v else getBit (s.readBuf d) p

/-- 40_bitlist.md section 2 (BL.COUNT) and section 3 law 4: the number of set data bits below the length. -/
def Obligations.BitlistCountCountsDataBits : Prop :=
  ∀ (s : State) (d : XReg) (a : BReg) (n : Nat), Memory.wf s = true → bitlistLength (s.readBuf a) n →
    ∃ t, exec (.blCount d a) s = .next t ∧ completes false s t ∧ changesOnlyX d s t ∧
      (t.readX d).toNat = bitsBelow (s.readBuf a) n

/-- 40_bitlist.md section 2 (BL.BYTES): the data bits without the sentinel, in the shortest sequence that holds them. -/
def Obligations.BitlistExportIsCanonical : Prop :=
  ∀ (s : State) (d a : BReg) (n : Nat), bitlistLength (s.readBuf a) n →
    ∃ t, exec (.blBytes d a) s = .next t ∧ completes false s t ∧ changesOnlyBuf d s t ∧
      ¬ malformed (t.readBuf d) ∧ (t.readBuf d).length ≤ (s.readBuf a).length ∧
      ∀ p, getBit (t.readBuf d) p = (decide (p < n) && getBit (s.readBuf a) p)

/-- 40_bitlist.md section 3 law 1: BL.LEN after BL.NEW of n returns n. -/
def Obligations.NewThenLengthReturnsN : Prop :=
  ∀ (s : State) (d : BReg) (a e : XReg), (s.readX a).toNat ≤ 8 * s.build.maxb - 1 →
    ∃ t u, exec (.blNew d a) s = .next t ∧ exec (.blLen e d) t = .next u ∧ u.readX e = s.readX a

/-- 40_bitlist.md section 3 law 2: BL.BITAT after BL.SETBIT at the same index below the length returns V. -/
def Obligations.BitlistReadAfterWrite : Prop :=
  ∀ (s : State) (d : BReg) (a e : XReg) (v : Bool) (n : Nat), bitlistLength (s.readBuf d) n → (s.readX a).toNat < n →
    ∃ t u, exec (.blSetbit d a v) s = .next t ∧ exec (.blBitat e d a) t = .next u ∧
      u.readX e = if v then 1 else 0

/-- R109: bitlist commands write only their destination, LMERR, SEQ and on a fault the fault record; and CFG, IDX and IDXCNT have no
effect on them: with other values there, they do the same. -/
def Obligations.BitlistCommandsIgnoreWidthAndListing : Prop :=
  ∀ (s t : State) (i : Instr) (vn : BitVec 32) (idx : List Word) (idxCnt : Word),
    (match i with
      | .blNew .. | .blLen .. | .blBitat .. | .blSetbit .. | .blCount .. | .blBytes .. => True
      | _ => False) →
    exec i s = .next t →
    ((∃ c w, faultsWith c w s t) ∨
      (completes false s t ∧
        match i with
        | .blNew d _ | .blSetbit d _ _ | .blBytes d _ => changesOnlyBuf d s t
        | .blLen d _ | .blBitat d _ _ | .blCount d _ => changesOnlyX d s t
        | _ => False)) ∧
    exec i { s with vn := vn, idx := idx, idxCnt := idxCnt } =
      .next { t with vn := vn, idx := idx, idxCnt := idxCnt }

/-! ## Bitvectors -/

/-- 41_bitvector.md section 2 (BV.NEW): buf[d] becomes ceil(N/8) zero bytes. -/
def Obligations.NewBitvectorIsZero : Prop :=
  ∀ (s : State) (d : BReg), ∃ t, exec (.bvNew d) s = .next t ∧ completes false s t ∧ changesOnlyBuf d s t ∧
    (t.readBuf d).length = (s.width + 7) / 8 ∧ ∀ p, getBit (t.readBuf d) p = false

/-- 41_bitvector.md section 2 (BV.LEN): x[d] becomes N whatever the buffers hold. -/
def Obligations.BitvectorLengthIsWidth : Prop :=
  ∀ (s : State) (d : XReg), ∃ t, exec (.bvLen d) s = .next t ∧ completes false s t ∧ changesOnlyX d s t ∧
    (t.readX d).toNat = s.vn.toNat

/-- 41_bitvector.md section 2 (BV.BITAT): the bit of an index below N in a buffer of exactly ceil(N/8) bytes, 0 otherwise. -/
def Obligations.BitvectorBitReadIsStrict : Prop :=
  ∀ (s : State) (d : XReg) (a : BReg) (b : XReg),
    ∃ t, exec (.bvBitat d a b) s = .next t ∧ completes false s t ∧ changesOnlyX d s t ∧
      t.readX d =
        if (s.readX b).toNat < s.width ∧ (s.readBuf a).length = (s.width + 7) / 8 ∧
          getBit (s.readBuf a) (s.readX b).toNat = true then 1 else 0

/-- 41_bitvector.md section 2 (BV.SETBIT): the bit of an index below N in a buffer of exactly ceil(N/8) bytes takes V; no other bit and no
length changes, and otherwise nothing does. -/
def Obligations.BitvectorBitWriteTouchesOneBit : Prop :=
  ∀ (s : State) (d : BReg) (a : XReg) (v : Bool),
    ∃ t, exec (.bvSetbit d a v) s = .next t ∧ completes false s t ∧ changesOnlyBuf d s t ∧
      (t.readBuf d).length = (s.readBuf d).length ∧
      ∀ p, getBit (t.readBuf d) p =
        if p = (s.readX a).toNat ∧ p < s.width ∧ (s.readBuf d).length = (s.width + 7) / 8 then v
        else getBit (s.readBuf d) p

/-- 41_bitvector.md section 2 (BV.COUNT): the number of set bits in the first min(|s|, B) bytes. -/
def Obligations.BitvectorCountClampsToWidth : Prop :=
  ∀ (s : State) (d : XReg) (a : BReg),
    ∃ t, exec (.bvCount d a) s = .next t ∧ completes false s t ∧ changesOnlyX d s t ∧
      (t.readX d).toNat = bitsBelow (s.readBuf a) (8 * min (s.readBuf a).length s.byteWidth)

/-- 41_bitvector.md section 2 (BV.BYTES): a copy of the first min(|s|, B) bytes, never padded or trimmed. -/
def Obligations.BitvectorExportClampsToWidth : Prop :=
  ∀ (s : State) (d a : BReg),
    ∃ t, exec (.bvBytes d a) s = .next t ∧ completes false s t ∧ changesOnlyBuf d s t ∧
      (t.readBuf d).length = min (s.readBuf a).length s.byteWidth ∧
      ∀ i, i < min (s.readBuf a).length s.byteWidth → t.bufByte d i = s.bufByte a i

/-- 41_bitvector.md section 2 (BV.INDICES): the index memory lists exactly the set positions of the first min(|s|, B) bytes in
ascending order, every further entry is 0, and IDXCNT and x[d] are their number. -/
def Obligations.IndicesListSetPositions : Prop :=
  ∀ (s : State) (d : XReg) (a : BReg),
    ∃ t, exec (.bvIndices d a) s = .next t ∧ completes false s t ∧ changesOnlyListing d s t ∧
      ∃ P : List Nat, P.Pairwise (· < ·) ∧
        (∀ p, p ∈ P ↔ p < 8 * min (s.readBuf a).length s.byteWidth ∧ getBit (s.readBuf a) p = true) ∧
        (∀ k, (t.readIdx k).toNat = P.getD k 0) ∧ t.idxCnt.toNat = P.length ∧ t.readX d = t.idxCnt

/-- 41_bitvector.md section 3 law 2: BV.BITAT after BV.SETBIT at the same accessible index returns V. -/
def Obligations.BitvectorReadAfterWrite : Prop :=
  ∀ (s : State) (d : BReg) (a e : XReg) (v : Bool),
    (s.readX a).toNat < s.width → (s.readBuf d).length = s.byteWidth →
    ∃ t u, exec (.bvSetbit d a v) s = .next t ∧ exec (.bvBitat e d a) t = .next u ∧ u.readX e = if v then 1 else 0

/-- 41_bitvector.md section 3 laws 3 and 5: on an addressable, tail-clean buffer BV.COUNT is the number of positions below N whose bit
is set, and BV.INDICES counts the same. -/
def Obligations.CountAgreesWithListing : Prop :=
  ∀ (s : State) (d e : XReg) (a : BReg), (s.readBuf a).length = s.byteWidth → s.tailClean (s.readBuf a) →
    ∃ t u, exec (.bvCount d a) s = .next t ∧ exec (.bvIndices e a) s = .next u ∧
      (t.readX d).toNat = bitsBelow (s.readBuf a) s.width ∧ u.idxCnt = t.readX d

/-! ## Set algebra and shift -/

/-- 42_bitvector_setalgebra.md section 1 and 60_exceptions.md section 3: on operands of different byte lengths BV.CONTAINS,
BV.OVERLAPS and BV.OR complete with LMERR = 1 and SEQ counted, and write no destination. -/
def Obligations.LengthMismatchWritesNoDestination : Prop :=
  ∀ (s : State) (i : Instr), operandsMismatch s i = true →
    ∃ t, exec i s = .next t ∧ completes true s t ∧ changesNoData s t

/-- 42_bitvector_setalgebra.md section 2 (BV.CONTAINS): 1 exactly when every set bit of the second operand is set in the first. -/
def Obligations.ContainsIsBitwiseSuperset : Prop :=
  ∀ (s : State) (d : XReg) (a b : BReg), (s.readBuf a).length = (s.readBuf b).length →
    ∃ t, exec (.bvContains d a b) s = .next t ∧ completes false s t ∧ changesOnlyX d s t ∧
      ((∀ p, getBit (s.readBuf b) p = true → getBit (s.readBuf a) p = true) → t.readX d = 1) ∧
      (¬ (∀ p, getBit (s.readBuf b) p = true → getBit (s.readBuf a) p = true) → t.readX d = 0)

/-- 42_bitvector_setalgebra.md section 2 (BV.OVERLAPS): 1 exactly when some position is set in both operands. -/
def Obligations.OverlapsIsCommonSetBit : Prop :=
  ∀ (s : State) (d : XReg) (a b : BReg), (s.readBuf a).length = (s.readBuf b).length →
    ∃ t, exec (.bvOverlaps d a b) s = .next t ∧ completes false s t ∧ changesOnlyX d s t ∧
      ((∃ p, getBit (s.readBuf a) p = true ∧ getBit (s.readBuf b) p = true) → t.readX d = 1) ∧
      (¬ (∃ p, getBit (s.readBuf a) p = true ∧ getBit (s.readBuf b) p = true) → t.readX d = 0)

/-- 42_bitvector_setalgebra.md section 2 (BV.OR): the union, bit by bit, of the same length. -/
def Obligations.OrIsBitwiseUnion : Prop :=
  ∀ (s : State) (d a b : BReg), (s.readBuf a).length = (s.readBuf b).length →
    ∃ t, exec (.bvOr d a b) s = .next t ∧ completes false s t ∧ changesOnlyBuf d s t ∧
      (t.readBuf d).length = (s.readBuf a).length ∧
      ∀ p, getBit (t.readBuf d) p = (getBit (s.readBuf a) p || getBit (s.readBuf b) p)

/-- 42_bitvector_setalgebra.md section 3 laws 1 and 5: a contains b exactly when their union is a, and the union contains both. -/
def Obligations.ContainsMeansUnionIsSelf : Prop :=
  ∀ (s : State) (d e f : XReg) (c a b : BReg), (s.readBuf a).length = (s.readBuf b).length → c ≠ a → c ≠ b →
    ∃ t u v w, exec (.bvContains d a b) s = .next t ∧ exec (.bvOr c a b) s = .next u ∧
      (t.readX d = 1 ↔ u.readBuf c = s.readBuf a) ∧
      exec (.bvContains e c a) u = .next v ∧ v.readX e = 1 ∧ exec (.bvContains f c b) u = .next w ∧ w.readX f = 1

/-- 42_bitvector_setalgebra.md section 2 (BV.SHIFT): a bit of the result is set exactly when it is no tail bit of a B-byte buffer and
the bit whose place in the shifted value lies n lower is set in the operand; the length never changes. Places are R145's in BE
order and R146's in LE order. -/
def Obligations.ShiftMovesBitsByAmount : Prop :=
  ∀ (s : State) (d : BReg) (a : XReg),
    let len := (s.readBuf d).length
    let place := valuePosition s.build.shiftOrder len
    ∃ t, exec (.bvShift d a) s = .next t ∧ completes false s t ∧ changesOnlyBuf d s t ∧
      (t.readBuf d).length = len ∧
      ∀ p, p < 8 * len →
        (getBit (t.readBuf d) p = true ↔
          (len = s.byteWidth → p < s.width) ∧
          ∃ q, q < 8 * len ∧ (place q : Int) + (s.readX a).toInt = place p ∧ getBit (s.readBuf d) q = true)

/-- 42_bitvector_setalgebra.md section 3 law 7: with no tail, shifts by n1 and by n2 of one sign compose to the shift by n1 + n2. -/
def Obligations.ShiftsOfOneSignCompose : Prop :=
  ∀ (s : State) (d : BReg) (a b c : XReg), (s.readBuf d).length = s.byteWidth → s.width % 8 = 0 →
    (0 ≤ (s.readX a).toInt ∧ 0 ≤ (s.readX b).toInt ∨ (s.readX a).toInt ≤ 0 ∧ (s.readX b).toInt ≤ 0) →
    (s.readX c).toInt = (s.readX a).toInt + (s.readX b).toInt →
    ∃ t u v, exec (.bvShift d a) s = .next t ∧ exec (.bvShift d b) t = .next u ∧ exec (.bvShift d c) s = .next v ∧
      u.readBuf d = v.readBuf d

/-- 42_bitvector_setalgebra.md section 3 law 8: for a buffer of at most B bytes BV.COUNT after BV.SHIFT never exceeds BV.COUNT
before. -/
def Obligations.ShiftNeverRaisesCount : Prop :=
  ∀ (s : State) (d : BReg) (a e : XReg), (s.readBuf d).length ≤ s.byteWidth →
    ∃ t u v, exec (.bvCount e d) s = .next t ∧ exec (.bvShift d a) s = .next u ∧ exec (.bvCount e d) u = .next v ∧
      (v.readX e).toNat ≤ (t.readX e).toNat

/-- R149: BV.CONTAINS and BV.OVERLAPS write x[d], BV.OR and BV.SHIFT buf[d], with LMERR and SEQ, and nothing else; on a mismatch no
destination. -/
def Obligations.SetAlgebraWritesOnlyDestination : Prop :=
  ∀ (s : State) (i : Instr),
    match i with
    | .bvContains d _ _ | .bvOverlaps d _ _ =>
      ∃ t, exec i s = .next t ∧ completes (operandsMismatch s i) s t ∧ changesOnlyX d s t ∧
        (operandsMismatch s i = true → t.readX d = s.readX d)
    | .bvOr d _ _ =>
      ∃ t, exec i s = .next t ∧ completes (operandsMismatch s i) s t ∧ changesOnlyBuf d s t ∧
        (operandsMismatch s i = true → t.readBuf d = s.readBuf d)
    | .bvShift d _ => ∃ t, exec i s = .next t ∧ completes false s t ∧ changesOnlyBuf d s t
    | _ => True

/-! ## The laws of the containers -/

/-- R108 and R129: where the memories have their canonical form, the bitlist commands satisfy laws 1 to 6 of R108 and the bitvector
access commands laws 1 to 5 of R129. -/
def Obligations.ContainerLawsHold : Prop :=
  ∀ s : State, Memory.wf s = true → BitlistLaws s ∧ BitvectorLaws s
end

