-- ==== Sys2Proof/Laws/Bytes.lean ====
section
/-! SUPPORT. The bits of byte sequences: reading and writing one, counting them, and the sentinel of a bitlist
(00_scope.md R13, R14, 40_bitlist.md R100). -/

namespace Sys2Proof.Laws

open Sys2Proof.Machine

/-! ### Single bits -/

theorem getBit_eq_false_of_length_le {s : List Byte} {p : Nat} (h : 8 * s.length ≤ p) : getBit s p = false := by
  rw [getBit, List.getD_eq_default _ _ (by omega)]
  simp

theorem lt_length_of_getBit {s : List Byte} {p : Nat} (h : getBit s p = true) : p < 8 * s.length := by
  by_contra hn
  simp [getBit_eq_false_of_length_le (Nat.le_of_not_lt hn)] at h

theorem getBit_byte (s : List Byte) (i j : Nat) (hj : j < 8) : getBit s (8 * i + j) = (s.getD i 0).getLsbD j := by
  have h1 : (8 * i + j) / 8 = i := by omega
  have h2 : (8 * i + j) % 8 = j := by omega
  simp [getBit, h1, h2]

/-- Sequences of one length with the same bits are equal. -/
theorem bytes_eq_of_getBit {s t : List Byte} (hl : s.length = t.length) (h : ∀ p, getBit s p = getBit t p) : s = t := by
  apply List.ext_getElem hl
  intro i hs ht
  apply BitVec.eq_of_getLsbD_eq
  intro j hj
  simpa [getBit_byte _ _ _ hj, hs, ht] using h (8 * i + j)

theorem getLsbD_setByteBit (b : Byte) (j k : Nat) (v : Bool) (hj : j < 8) (hk : k < 8) :
    (setByteBit b j v).getLsbD k = if k = j then v else b.getLsbD k := by
  have : ∀ j k : Fin 8, ∀ v : Bool,
      (setByteBit b j v).getLsbD k = if k = j then v else b.getLsbD k := by
    intro j k v
    by_cases h : k = j
    · subst h
      cases v <;> fin_cases k <;> simp [setByteBit]
    · rw [if_neg h]
      cases v <;> fin_cases j <;> fin_cases k <;> simp_all [setByteBit]
  have := this ⟨j, hj⟩ ⟨k, hk⟩ v
  simpa [Fin.ext_iff] using this

@[simp] theorem length_setBit (s : List Byte) (p : Nat) (v : Bool) : (setBit s p v).length = s.length := by
  simp [setBit]

/-- A bit write changes the addressed bit of an existing byte, and no other. -/
theorem getBit_setBit (s : List Byte) (p q : Nat) (v : Bool) :
    getBit (setBit s p v) q = if q = p ∧ p / 8 < s.length then v else getBit s q := by
  by_cases hl : p / 8 < s.length
  · by_cases hb : q / 8 = p / 8
    · have : (setBit s p v).getD (q / 8) 0 = setByteBit (s.getD (p / 8) 0) (p % 8) v := by
        simp [setBit, hb, hl]
      rw [getBit, this, getLsbD_setByteBit _ _ _ _ (Nat.mod_lt _ (by omega)) (Nat.mod_lt _ (by omega))]
      have hq : q % 8 = p % 8 ↔ q = p := by omega
      simp [hq, hl, getBit, hb]
    · have hq : q ≠ p := fun h => hb (by rw [h])
      have : (setBit s p v).getD (q / 8) 0 = s.getD (q / 8) 0 := by
        simp [setBit, Ne.symm hb]
      simp only [getBit, this, hq, false_and, if_false]
  · have : setBit s p v = s := by simp [setBit, List.set_eq_of_length_le (Nat.le_of_not_lt hl)]
    simp [this, hl]

theorem getBit_take (s : List Byte) (n p : Nat) : getBit (s.take n) p = (decide (p < 8 * n) && getBit s p) := by
  by_cases h : p / 8 < n
  · have : p < 8 * n := by omega
    simp [getBit, h, this]
  · have : ¬ p < 8 * n := by omega
    simp [getBit, h, this]

theorem getBit_replicate_zero (n p : Nat) : getBit (List.replicate n 0) p = false := by
  simp only [getBit, List.getD, List.getElem?_replicate]
  split <;> simp

/-! ### Counting -/

theorem countP_range_add (f : Nat → Bool) (m n : Nat) :
    (List.range (m + n)).countP f = (List.range m).countP f + (List.range n).countP (fun j => f (m + j)) := by
  rw [List.range_add, List.countP_append, List.countP_map]
  rfl

/-- The population count is the number of set positions. -/
theorem popcount_eq_bitsBelow (s : List Byte) : popcount s = bitsBelow s (8 * s.length) := by
  induction s with
  | nil => rfl
  | cons b rest ih =>
    have hb : (List.range 8).countP (getBit (b :: rest)) = popcount8 b :=
      List.countP_congr fun j hj => by
        have hj : j < 8 := List.mem_range.mp hj
        have := getBit_byte (b :: rest) 0 j hj
        simp only [Nat.mul_zero, Nat.zero_add] at this
        simp [this]
    have hr : ∀ j, getBit (b :: rest) (8 + j) = getBit rest j := fun j => by
      have h1 : (8 + j) / 8 = j / 8 + 1 := by omega
      have h2 : (8 + j) % 8 = j % 8 := by omega
      simp [getBit, h1, h2]
    have hlen : 8 * (b :: rest).length = 8 + 8 * rest.length := by simp; omega
    rw [hlen, bitsBelow, countP_range_add, hb]
    simp only [hr]
    simp [popcount, bitsBelow] at ih ⊢
    exact ih

theorem bitsBelow_le (s : List Byte) (n : Nat) : bitsBelow s n ≤ n := by
  simpa [bitsBelow] using List.countP_le_length (p := getBit s) (l := List.range n)

/-! ### The sentinel -/

/-- `bitlen8` names the highest set bit of a byte that is not 0. -/
theorem bitLen8_spec : ∀ b : Byte, b ≠ 0 →
    1 ≤ bitLen8 b ∧ bitLen8 b ≤ 8 ∧ b.getLsbD (bitLen8 b - 1) = true ∧
      ∀ j, j < 8 → bitLen8 b ≤ j → b.getLsbD j = false := by decide

theorem blWf_iff_not_malformed (s : List Byte) : blWf s = true ↔ ¬ malformed s := by
  unfold blWf malformed
  cases s.getLast? <;> simp

/-- A well-formed sequence has the length its sentinel gives. -/
theorem bitlistLength_blLen {s : List Byte} (h : blWf s = true) : bitlistLength s (blLen s) := by
  rcases List.eq_nil_or_concat s with rfl | ⟨l, b, rfl⟩
  · exact .inl ⟨rfl, rfl⟩
  · rw [List.concat_eq_append] at h ⊢
    right
    have hb : b ≠ 0 := by simpa [blWf] using h
    obtain ⟨h1, h8, hset, hclear⟩ := bitLen8_spec b hb
    have hlen : blLen (l ++ [b]) = 8 * l.length + (bitLen8 b - 1) := by
      simp [blLen]; omega
    refine ⟨by simp [hlen]; omega, ?_, fun p hp => ?_⟩
    · rw [hlen, getBit_byte _ _ _ (by omega)]
      simpa using hset
    · by_cases hp8 : 8 * (l ++ [b]).length ≤ p
      · exact getBit_eq_false_of_length_le hp8
      · simp at hp8
        obtain ⟨j, rfl⟩ : ∃ j, p = 8 * l.length + j := ⟨p - 8 * l.length, by omega⟩
        rw [getBit_byte _ _ _ (by omega)]
        simpa using hclear j (by omega) (by omega)

/-- A sequence has at most one length. -/
theorem bitlistLength_unique {s : List Byte} {m n : Nat} (hm : bitlistLength s m) (hn : bitlistLength s n) : m = n := by
  rcases hm with ⟨rfl, rfl⟩ | ⟨hm1, hm2, hm3⟩
  · rcases hn with ⟨-, rfl⟩ | ⟨h, -, -⟩
    · rfl
    · simp at h
  · rcases hn with ⟨rfl, rfl⟩ | ⟨hn1, hn2, hn3⟩
    · simp at hm1
    · rcases Nat.lt_trichotomy m n with h | h | h
      · simp [hm3 n h] at hn2
      · exact h
      · simp [hn3 m h] at hm2

/-- A sequence that has a length is well-formed. -/
theorem blWf_of_bitlistLength {s : List Byte} {n : Nat} (h : bitlistLength s n) : blWf s = true := by
  rcases List.eq_nil_or_concat s with rfl | ⟨l, b, rfl⟩
  · rfl
  · rw [List.concat_eq_append] at h ⊢
    rcases h with ⟨h, -⟩ | ⟨h1, h2, -⟩
    · simp at h
    · have hb : b ≠ 0 := by
        rintro rfl
        have : n / 8 = l.length := by simpa using h1
        simp [getBit, this] at h2
      simpa [blWf] using hb

theorem blLen_of_bitlistLength {s : List Byte} {n : Nat} (h : bitlistLength s n) : blLen s = n :=
  bitlistLength_unique (bitlistLength_blLen (blWf_of_bitlistLength h)) h

/-- Positions at or past the length hold no bit but the sentinel. -/
theorem getBit_of_length_lt {s : List Byte} {n p : Nat} (h : bitlistLength s n) (hp : n < p) : getBit s p = false := by
  rcases h with ⟨rfl, rfl⟩ | ⟨-, -, h3⟩
  · simp [getBit]
  · exact h3 p hp

end Sys2Proof.Laws
end

