-- ==== Sys2Proof/Laws/Encoding.lean ====
section
/-! SUPPORT. The bits of format C and what the decoder can answer (30_encoding.md R76, R79, R93). -/

namespace Sys2Proof.Laws

/-- Every bit of a format C word, from its fields (30_encoding.md R76). -/
theorem getLsbD_formatC (opc : BitVec 8) (d a b : Fin 8) (v : Bool) (i : Nat) :
    (formatC opc d a b v).getLsbD i =
      if i < 8 then opc.getLsbD i
      else if i < 11 then d.val.testBit (i - 8)
      else if i < 12 then false
      else if i < 15 then a.val.testBit (i - 12)
      else if i < 16 then false
      else if i < 19 then b.val.testBit (i - 16)
      else if i < 20 then false
      else if i < 21 then v
      else false := by
  have hf : ∀ (r : Fin 8) (k : Nat), (BitVec.ofFin (w := 3) r).getLsbD k = r.val.testBit k := fun r k => rfl
  simp only [formatC, BitVec.getLsbD_append, hf]
  have h0 : ∀ n k, (0#n).getLsbD k = false := fun n k => by simp
  have e1 : i - 8 < 3 ↔ i < 11 := by omega
  have e2 : i - 11 < 1 ↔ i < 12 := by omega
  have e3 : i - 12 < 3 ↔ i < 15 := by omega
  have e4 : i - 15 < 1 ↔ i < 16 := by omega
  have e5 : i - 16 < 3 ↔ i < 19 := by omega
  have e6 : i - 19 < 1 ↔ i < 20 := by omega
  have e7 : i - 20 < 1 ↔ i < 21 := by omega
  have ev : (BitVec.ofBool v).getLsbD (i - 20) = (decide (i < 21) && v) := by
    by_cases h : i < 21
    · rw [show i - 20 = 0 by omega]; cases v <;> simp [h]
    · rw [BitVec.getLsbD_of_ge _ _ (by omega)]; simp [h]
  simp only [h0, Nat.sub_sub, Nat.reduceAdd, e1, e2, e3, e4, e5, e6, e7, ev]
  simp only [← Bool.cond_decide]
  by_cases h : i < 21 <;> simp [h]

/-! The bits of the register fields (30_encoding.md R76). -/

theorem fieldD_testBit (c : CmdWord) (k : Nat) (hk : k < 3) :
    (fieldD c).val.testBit k = c.getLsbD (8 + k) := by
  have : (fieldD c).val.testBit k = (c.extractLsb' 8 3).getLsbD k := rfl
  rw [this]; simp [hk]

theorem fieldA_testBit (c : CmdWord) (k : Nat) (hk : k < 3) :
    (fieldA c).val.testBit k = c.getLsbD (12 + k) := by
  have : (fieldA c).val.testBit k = (c.extractLsb' 12 3).getLsbD k := rfl
  rw [this]; simp [hk]

theorem fieldB_testBit (c : CmdWord) (k : Nat) (hk : k < 3) :
    (fieldB c).val.testBit k = c.getLsbD (16 + k) := by
  have : (fieldB c).val.testBit k = (c.extractLsb' 16 3).getLsbD k := rfl
  rw [this]; simp [hk]

/-- A word agrees with a row's pattern in every bit its mask keeps (30_encoding.md R79). -/
theorem getLsbD_of_masked {c m k : CmdWord} (h : c &&& m = k) (i : Nat) (hm : m.getLsbD i = true) :
    c.getLsbD i = k.getLsbD i := by
  rw [← h]; simp [hm]

/-- The row a word selects is a row of the table that the word matches. -/
theorem selectRow_some {c : CmdWord} {r : Row} (h : selectRow c = some r) :
    r ∈ opcodeTable ∧ c &&& r.mask = r.code := by
  unfold selectRow at h
  exact ⟨List.mem_of_find?_eq_some h, by simpa using List.find?_some h⟩

/-- What decoding can answer: a value that decodes to a command has a zero high half and matches the command's row, from whose fields
the command is made (30_encoding.md R93). -/
theorem decode_ok {w : Word} {i : Instr} (h : decode w = .ok i) :
    w.extractLsb' 32 32 = 0 ∧
      ∃ r ∈ opcodeTable, w.extractLsb' 0 32 &&& r.mask = r.code ∧ i = r.mnemonic.instr (w.extractLsb' 0 32) := by
  unfold decode at h
  split at h
  · simp at h
  · rename_i h0
    split at h
    · rename_i r hr
      obtain ⟨h1, h2⟩ := selectRow_some hr
      refine ⟨by simpa using h0, r, h1, h2, ?_⟩
      simpa using h.symm
    · split at h <;> simp at h

end Sys2Proof.Laws
end

