-- ==== Sys2Proof/Laws/State.lean ====
section
/-! SUPPORT. One lemma per field per update of the state, and reads after writes of registers and buffers. -/

namespace Sys2Proof.Laws

open Sys2Proof.Machine

section Fields

variable (s : State)

@[simp] theorem writeX_build (r : XReg) (v : Word) : (s.writeX r v).build = s.build := rfl
@[simp] theorem writeX_x (r : XReg) (v : Word) : (s.writeX r v).x = s.x.set r v := rfl
@[simp] theorem writeX_buf (r : XReg) (v : Word) : (s.writeX r v).buf = s.buf := rfl
@[simp] theorem writeX_idx (r : XReg) (v : Word) : (s.writeX r v).idx = s.idx := rfl
@[simp] theorem writeX_idxCnt (r : XReg) (v : Word) : (s.writeX r v).idxCnt = s.idxCnt := rfl
@[simp] theorem writeX_vn (r : XReg) (v : Word) : (s.writeX r v).vn = s.vn := rfl
@[simp] theorem writeX_faulted (r : XReg) (v : Word) : (s.writeX r v).faulted = s.faulted := rfl
@[simp] theorem writeX_lmerr (r : XReg) (v : Word) : (s.writeX r v).lmerr = s.lmerr := rfl
@[simp] theorem writeX_fcause (r : XReg) (v : Word) : (s.writeX r v).fcause = s.fcause := rfl
@[simp] theorem writeX_finfo (r : XReg) (v : Word) : (s.writeX r v).finfo = s.finfo := rfl
@[simp] theorem writeX_seq (r : XReg) (v : Word) : (s.writeX r v).seq = s.seq := rfl
@[simp] theorem writeX_requests (r : XReg) (v : Word) : (s.writeX r v).requests = s.requests := rfl
@[simp] theorem writeX_responses (r : XReg) (v : Word) : (s.writeX r v).responses = s.responses := rfl

@[simp] theorem writeBuf_build (b : BReg) (bytes : List Byte) : (s.writeBuf b bytes).build = s.build := rfl
@[simp] theorem writeBuf_x (b : BReg) (bytes : List Byte) : (s.writeBuf b bytes).x = s.x := rfl
@[simp] theorem writeBuf_buf (b : BReg) (bytes : List Byte) : (s.writeBuf b bytes).buf = s.buf.set b bytes := rfl
@[simp] theorem writeBuf_idx (b : BReg) (bytes : List Byte) : (s.writeBuf b bytes).idx = s.idx := rfl
@[simp] theorem writeBuf_idxCnt (b : BReg) (bytes : List Byte) : (s.writeBuf b bytes).idxCnt = s.idxCnt := rfl
@[simp] theorem writeBuf_vn (b : BReg) (bytes : List Byte) : (s.writeBuf b bytes).vn = s.vn := rfl
@[simp] theorem writeBuf_faulted (b : BReg) (bytes : List Byte) : (s.writeBuf b bytes).faulted = s.faulted := rfl
@[simp] theorem writeBuf_lmerr (b : BReg) (bytes : List Byte) : (s.writeBuf b bytes).lmerr = s.lmerr := rfl
@[simp] theorem writeBuf_fcause (b : BReg) (bytes : List Byte) : (s.writeBuf b bytes).fcause = s.fcause := rfl
@[simp] theorem writeBuf_finfo (b : BReg) (bytes : List Byte) : (s.writeBuf b bytes).finfo = s.finfo := rfl
@[simp] theorem writeBuf_seq (b : BReg) (bytes : List Byte) : (s.writeBuf b bytes).seq = s.seq := rfl
@[simp] theorem writeBuf_requests (b : BReg) (bytes : List Byte) : (s.writeBuf b bytes).requests = s.requests := rfl
@[simp] theorem writeBuf_responses (b : BReg) (bytes : List Byte) : (s.writeBuf b bytes).responses = s.responses := rfl

@[simp] theorem writeListing_build (positions : List Nat) : (s.writeListing positions).build = s.build := rfl
@[simp] theorem writeListing_x (positions : List Nat) : (s.writeListing positions).x = s.x := rfl
@[simp] theorem writeListing_buf (positions : List Nat) : (s.writeListing positions).buf = s.buf := rfl
@[simp] theorem writeListing_idx (positions : List Nat) : (s.writeListing positions).idx = positions.map zext64 := rfl
@[simp] theorem writeListing_idxCnt (positions : List Nat) : (s.writeListing positions).idxCnt = zext64 positions.length := rfl
@[simp] theorem writeListing_vn (positions : List Nat) : (s.writeListing positions).vn = s.vn := rfl
@[simp] theorem writeListing_faulted (positions : List Nat) : (s.writeListing positions).faulted = s.faulted := rfl
@[simp] theorem writeListing_lmerr (positions : List Nat) : (s.writeListing positions).lmerr = s.lmerr := rfl
@[simp] theorem writeListing_fcause (positions : List Nat) : (s.writeListing positions).fcause = s.fcause := rfl
@[simp] theorem writeListing_finfo (positions : List Nat) : (s.writeListing positions).finfo = s.finfo := rfl
@[simp] theorem writeListing_seq (positions : List Nat) : (s.writeListing positions).seq = s.seq := rfl
@[simp] theorem writeListing_requests (positions : List Nat) : (s.writeListing positions).requests = s.requests := rfl
@[simp] theorem writeListing_responses (positions : List Nat) : (s.writeListing positions).responses = s.responses := rfl

@[simp] theorem complete_build (m : Bool) : (s.complete m).build = s.build := rfl
@[simp] theorem complete_x (m : Bool) : (s.complete m).x = s.x := rfl
@[simp] theorem complete_buf (m : Bool) : (s.complete m).buf = s.buf := rfl
@[simp] theorem complete_idx (m : Bool) : (s.complete m).idx = s.idx := rfl
@[simp] theorem complete_idxCnt (m : Bool) : (s.complete m).idxCnt = s.idxCnt := rfl
@[simp] theorem complete_vn (m : Bool) : (s.complete m).vn = s.vn := rfl
@[simp] theorem complete_faulted (m : Bool) : (s.complete m).faulted = s.faulted := rfl
@[simp] theorem complete_lmerr (m : Bool) : (s.complete m).lmerr = m := rfl
@[simp] theorem complete_fcause (m : Bool) : (s.complete m).fcause = s.fcause := rfl
@[simp] theorem complete_finfo (m : Bool) : (s.complete m).finfo = s.finfo := rfl
@[simp] theorem complete_seq (m : Bool) : (s.complete m).seq = s.seq + 1 := rfl
@[simp] theorem complete_requests (m : Bool) : (s.complete m).requests = s.requests := rfl
@[simp] theorem complete_responses (m : Bool) : (s.complete m).responses = s.responses := rfl

@[simp] theorem enterFault_build (cause : FaultCause) (w : Word) : (s.enterFault cause w).build = s.build := rfl
@[simp] theorem enterFault_x (cause : FaultCause) (w : Word) : (s.enterFault cause w).x = s.x := rfl
@[simp] theorem enterFault_buf (cause : FaultCause) (w : Word) : (s.enterFault cause w).buf = s.buf := rfl
@[simp] theorem enterFault_idx (cause : FaultCause) (w : Word) : (s.enterFault cause w).idx = s.idx := rfl
@[simp] theorem enterFault_idxCnt (cause : FaultCause) (w : Word) : (s.enterFault cause w).idxCnt = s.idxCnt := rfl
@[simp] theorem enterFault_vn (cause : FaultCause) (w : Word) : (s.enterFault cause w).vn = s.vn := rfl
@[simp] theorem enterFault_faulted (cause : FaultCause) (w : Word) : (s.enterFault cause w).faulted = true := rfl
@[simp] theorem enterFault_lmerr (cause : FaultCause) (w : Word) : (s.enterFault cause w).lmerr = s.lmerr := rfl
@[simp] theorem enterFault_fcause (cause : FaultCause) (w : Word) : (s.enterFault cause w).fcause = cause := rfl
@[simp] theorem enterFault_finfo (cause : FaultCause) (w : Word) : (s.enterFault cause w).finfo = w := rfl
@[simp] theorem enterFault_seq (cause : FaultCause) (w : Word) : (s.enterFault cause w).seq = s.seq := rfl
@[simp] theorem enterFault_requests (cause : FaultCause) (w : Word) : (s.enterFault cause w).requests = s.requests := rfl
@[simp] theorem enterFault_responses (cause : FaultCause) (w : Word) : (s.enterFault cause w).responses = s.responses := rfl

@[simp] theorem resetUnit_build : (s.resetUnit).build = s.build := rfl
@[simp] theorem resetUnit_x : (s.resetUnit).x = Vector.replicate 8 0 := rfl
@[simp] theorem resetUnit_buf : (s.resetUnit).buf = Vector.replicate 8 [] := rfl
@[simp] theorem resetUnit_idx : (s.resetUnit).idx = [] := rfl
@[simp] theorem resetUnit_idxCnt : (s.resetUnit).idxCnt = 0 := rfl
@[simp] theorem resetUnit_vn : (s.resetUnit).vn = 16 := rfl
@[simp] theorem resetUnit_faulted : (s.resetUnit).faulted = false := rfl
@[simp] theorem resetUnit_lmerr : (s.resetUnit).lmerr = false := rfl
@[simp] theorem resetUnit_fcause : (s.resetUnit).fcause = .none := rfl
@[simp] theorem resetUnit_finfo : (s.resetUnit).finfo = 0 := rfl
@[simp] theorem resetUnit_seq : (s.resetUnit).seq = 0 := rfl
@[simp] theorem resetUnit_requests : (s.resetUnit).requests = s.requests := rfl
@[simp] theorem resetUnit_responses : (s.resetUnit).responses = s.responses := rfl

@[simp] theorem respond_build (r : HostResponse) : (s.respond r).build = s.build := rfl
@[simp] theorem respond_x (r : HostResponse) : (s.respond r).x = s.x := rfl
@[simp] theorem respond_buf (r : HostResponse) : (s.respond r).buf = s.buf := rfl
@[simp] theorem respond_idx (r : HostResponse) : (s.respond r).idx = s.idx := rfl
@[simp] theorem respond_idxCnt (r : HostResponse) : (s.respond r).idxCnt = s.idxCnt := rfl
@[simp] theorem respond_vn (r : HostResponse) : (s.respond r).vn = s.vn := rfl
@[simp] theorem respond_faulted (r : HostResponse) : (s.respond r).faulted = s.faulted := rfl
@[simp] theorem respond_lmerr (r : HostResponse) : (s.respond r).lmerr = s.lmerr := rfl
@[simp] theorem respond_fcause (r : HostResponse) : (s.respond r).fcause = s.fcause := rfl
@[simp] theorem respond_finfo (r : HostResponse) : (s.respond r).finfo = s.finfo := rfl
@[simp] theorem respond_seq (r : HostResponse) : (s.respond r).seq = s.seq := rfl
@[simp] theorem respond_requests (r : HostResponse) : (s.respond r).requests = s.requests := rfl
@[simp] theorem respond_responses (r : HostResponse) : (s.respond r).responses = s.responses ++ [r] := rfl

end Fields

section Reads

variable (s : State)

@[simp] theorem readX_writeX_self (r : XReg) (v : Word) : (s.writeX r v).readX r = v := by
  simp [State.readX, State.writeX]

theorem readX_writeX (r q : XReg) (v : Word) : (s.writeX r v).readX q = if q = r then v else s.readX q := by
  simp [State.readX, State.writeX, Vector.getElem_set, Fin.ext_iff, eq_comm]

@[simp] theorem readX_writeX_of_ne {r q : XReg} (h : q ≠ r) (v : Word) : (s.writeX r v).readX q = s.readX q := by
  simp [readX_writeX, h]

@[simp] theorem readBuf_writeBuf_self (b : BReg) (bytes : List Byte) : (s.writeBuf b bytes).readBuf b = bytes := by
  simp [State.readBuf, State.writeBuf]

theorem readBuf_writeBuf (b c : BReg) (bytes : List Byte) :
    (s.writeBuf b bytes).readBuf c = if c = b then bytes else s.readBuf c := by
  simp [State.readBuf, State.writeBuf, Vector.getElem_set, Fin.ext_iff, eq_comm]

@[simp] theorem readBuf_writeBuf_of_ne {b c : BReg} (h : c ≠ b) (bytes : List Byte) :
    (s.writeBuf b bytes).readBuf c = s.readBuf c := by
  simp [readBuf_writeBuf, h]

@[simp] theorem writeX_readBuf (r : XReg) (v : Word) (c : BReg) : (s.writeX r v).readBuf c = s.readBuf c := rfl
@[simp] theorem writeX_readIdx (r : XReg) (v : Word) (k : Nat) : (s.writeX r v).readIdx k = s.readIdx k := rfl
@[simp] theorem writeX_width (r : XReg) (v : Word) : (s.writeX r v).width = s.width := rfl
@[simp] theorem writeX_byteWidth (r : XReg) (v : Word) : (s.writeX r v).byteWidth = s.byteWidth := rfl

@[simp] theorem writeBuf_readX (b : BReg) (bytes : List Byte) (q : XReg) : (s.writeBuf b bytes).readX q = s.readX q := rfl
@[simp] theorem writeBuf_readIdx (b : BReg) (bytes : List Byte) (k : Nat) : (s.writeBuf b bytes).readIdx k = s.readIdx k := rfl
@[simp] theorem writeBuf_width (b : BReg) (bytes : List Byte) : (s.writeBuf b bytes).width = s.width := rfl
@[simp] theorem writeBuf_byteWidth (b : BReg) (bytes : List Byte) : (s.writeBuf b bytes).byteWidth = s.byteWidth := rfl

@[simp] theorem writeListing_readX (positions : List Nat) (q : XReg) : (s.writeListing positions).readX q = s.readX q := rfl
@[simp] theorem writeListing_readBuf (positions : List Nat) (c : BReg) : (s.writeListing positions).readBuf c = s.readBuf c := rfl
@[simp] theorem writeListing_width (positions : List Nat) : (s.writeListing positions).width = s.width := rfl
@[simp] theorem writeListing_byteWidth (positions : List Nat) : (s.writeListing positions).byteWidth = s.byteWidth := rfl

@[simp] theorem complete_readX (m : Bool) (q : XReg) : (s.complete m).readX q = s.readX q := rfl
@[simp] theorem complete_readBuf (m : Bool) (c : BReg) : (s.complete m).readBuf c = s.readBuf c := rfl
@[simp] theorem complete_readIdx (m : Bool) (k : Nat) : (s.complete m).readIdx k = s.readIdx k := rfl
@[simp] theorem complete_width (m : Bool) : (s.complete m).width = s.width := rfl
@[simp] theorem complete_byteWidth (m : Bool) : (s.complete m).byteWidth = s.byteWidth := rfl

@[simp] theorem enterFault_readX (cause : FaultCause) (w : Word) (q : XReg) : (s.enterFault cause w).readX q = s.readX q := rfl
@[simp] theorem enterFault_readBuf (cause : FaultCause) (w : Word) (c : BReg) : (s.enterFault cause w).readBuf c = s.readBuf c := rfl
@[simp] theorem enterFault_readIdx (cause : FaultCause) (w : Word) (k : Nat) : (s.enterFault cause w).readIdx k = s.readIdx k := rfl
@[simp] theorem enterFault_width (cause : FaultCause) (w : Word) : (s.enterFault cause w).width = s.width := rfl
@[simp] theorem enterFault_byteWidth (cause : FaultCause) (w : Word) : (s.enterFault cause w).byteWidth = s.byteWidth := rfl

@[simp] theorem respond_readX (r : HostResponse) (q : XReg) : (s.respond r).readX q = s.readX q := rfl
@[simp] theorem respond_readBuf (r : HostResponse) (c : BReg) : (s.respond r).readBuf c = s.readBuf c := rfl
@[simp] theorem respond_readIdx (r : HostResponse) (k : Nat) : (s.respond r).readIdx k = s.readIdx k := rfl
@[simp] theorem respond_width (r : HostResponse) : (s.respond r).width = s.width := rfl
@[simp] theorem respond_byteWidth (r : HostResponse) : (s.respond r).byteWidth = s.byteWidth := rfl

@[simp] theorem bufByte_eq (b : BReg) (i : Nat) : s.bufByte b i = (s.readBuf b).getD i 0 := rfl

end Reads

end Sys2Proof.Laws
end

