-- ==== Sys2Proof/Laws/Ops.lean ====
section
/-! SUPPORT. What the shared operations can do: the ends of a command, the frames of the register and buffer writes, what each
command answers, and that every memory operation keeps the canonical form of the memories. -/

namespace Sys2Proof.Laws

open Sys2Proof.Machine

/-! ### Ends of a command (30_encoding.md R94, R95) -/

@[simp] theorem retire_fault (i : Instr) (s : State) (cause : FaultCause) :
    retire i s (.fault cause) = .next (s.enterFault cause (cmdValue i)) := rfl

@[simp] theorem retire_lengthMismatch (i : Instr) (s : State) :
    retire i s .lengthMismatch = .next (s.complete true) := rfl

@[simp] theorem retire_success (i : Instr) (s u : State) :
    retire i s (.success u) = .next (u.complete false) := rfl

theorem withBitlist_of_wf {s : State} {b : BReg} (h : blWf (s.readBuf b) = true) (k : List Byte → CmdResult) :
    withBitlist s b k = k (s.readBuf b) := by simp [withBitlist, h]

theorem withBitlist_of_malformed {s : State} {b : BReg} (h : malformed (s.readBuf b)) (k : List Byte → CmdResult) :
    withBitlist s b k = .fault .malformedBitlist := by
  have : blWf (s.readBuf b) = false := by
    rw [← Bool.not_eq_true, blWf_iff_not_malformed, not_not]; exact h
  simp [withBitlist, this]

theorem withPair_of_eq {s : State} {a b : BReg} (h : (s.readBuf a).length = (s.readBuf b).length)
    (k : List Byte → List Byte → CmdResult) : withPair s a b k = k (s.readBuf a) (s.readBuf b) := by
  simp [withPair, h]

theorem withPair_of_ne {s : State} {a b : BReg} (h : (s.readBuf a).length ≠ (s.readBuf b).length)
    (k : List Byte → List Byte → CmdResult) : withPair s a b k = .lengthMismatch := by
  simp [withPair, h]

/-! ### Frames -/

theorem sameBuffer_iff (b : BReg) (s t : State) : sameBuffer b s t ↔ t.readBuf b = s.readBuf b := by
  constructor
  · rintro ⟨hl, hb⟩
    apply List.ext_getElem hl
    intro i h1 h2
    simpa [h1, h2] using hb i
  · intro h
    simp [sameBuffer, h]

theorem sameControl_refl (s : State) : sameControl s s := by simp [sameControl]

theorem completes_complete (s u : State) (m : Bool) (h : u.seq = s.seq) : completes m s (u.complete m) := by
  simp [completes, h]

theorem changesNoData_complete (s : State) (m : Bool) : changesNoData s (s.complete m) := by
  simp [changesNoData, sameBuffer_iff, sameListing, sameControl]

theorem changesOnlyX_writeX (s : State) (d : XReg) (v : Word) (m : Bool) :
    changesOnlyX d s ((s.writeX d v).complete m) := by
  simp +contextual [changesOnlyX, sameBuffer_iff, sameListing, sameControl]

theorem changesOnlyBuf_writeBuf (s : State) (d : BReg) (bytes : List Byte) (m : Bool) :
    changesOnlyBuf d s ((s.writeBuf d bytes).complete m) := by
  simp +contextual [changesOnlyBuf, sameBuffer_iff, sameListing, sameControl]

theorem changesOnlyBuf_of_changesNoData {s t : State} (d : BReg) (h : changesNoData s t) : changesOnlyBuf d s t :=
  ⟨h.1, fun b _ => h.2.1 b, h.2.2⟩

theorem changesOnlyX_of_changesNoData {s t : State} (d : XReg) (h : changesNoData s t) : changesOnlyX d s t :=
  ⟨fun r _ => h.1 r, h.2⟩

theorem changesOnlyListing_writeListing (s : State) (d : XReg) (v : Word) (positions : List Nat) (m : Bool) :
    changesOnlyListing d s (((s.writeListing positions).writeX d v).complete m) := by
  simp +contextual [changesOnlyListing, sameBuffer_iff, sameControl]

theorem faultsWith_enterFault (s : State) (cause : FaultCause) (w : Word) : faultsWith cause w s (s.enterFault cause w) := by
  simp [faultsWith, sameBuffer_iff, sameListing]

/-! ### What each command answers -/

section Answers

variable (s : State)

theorem exec_nop : exec .nop s = .next (s.complete false) := rfl

theorem exec_blNew_of_le (d : BReg) (a : XReg) (h : (s.readX a).toNat ≤ 8 * s.build.maxb - 1) :
    exec (.blNew d a) s = .next ((s.writeBuf d (newBitlist (s.readX a).toNat)).complete false) := by
  simp only [exec, execBlNew, if_neg (Nat.not_lt.mpr h), retire_success]

theorem exec_blNew_of_gt (d : BReg) (a : XReg) (h : 8 * s.build.maxb - 1 < (s.readX a).toNat) :
    exec (.blNew d a) s = .next (s.enterFault .capacity (cmdValue (.blNew d a))) := by
  simp only [exec, execBlNew, if_pos h, retire_fault]

theorem exec_blLen (d : XReg) (a : BReg) (h : blWf (s.readBuf a) = true) :
    exec (.blLen d a) s = .next ((s.writeX d (zext64 (blLen (s.readBuf a)))).complete false) := by
  simp only [exec, execBlLen, withBitlist_of_wf h, retire_success]

theorem exec_blBitat (d : XReg) (a : BReg) (b : XReg) (h : blWf (s.readBuf a) = true) :
    exec (.blBitat d a b) s =
      .next ((s.writeX d (if (s.readX b).toNat < blLen (s.readBuf a) then
        boolWord (getBit (s.readBuf a) (s.readX b).toNat) else 0)).complete false) := by
  simp only [exec, execBlBitat, withBitlist_of_wf h, retire_success]

theorem exec_blSetbit (d : BReg) (a : XReg) (v : Bool) (h : blWf (s.readBuf d) = true) :
    exec (.blSetbit d a v) s =
      .next ((if (s.readX a).toNat < blLen (s.readBuf d) then
        s.writeBuf d (setBit (s.readBuf d) (s.readX a).toNat v) else s).complete false) := by
  simp only [exec, execBlSetbit, withBitlist_of_wf h, retire_success]

theorem exec_blCount (d : XReg) (a : BReg) (h : blWf (s.readBuf a) = true) :
    exec (.blCount d a) s =
      .next ((s.writeX d (if popcount (s.readBuf a) ≠ 0 then zext64 (popcount (s.readBuf a) - 1) else 0)).complete
        false) := by
  simp only [exec, execBlCount, withBitlist_of_wf h, retire_success]

theorem exec_blBytes (d a : BReg) (h : blWf (s.readBuf a) = true) :
    exec (.blBytes d a) s =
      .next ((s.writeBuf d (trimZeros (clearSentinel (s.readBuf a)))).complete false) := by
  simp only [exec, execBlBytes, withBitlist_of_wf h, retire_success]

theorem exec_bvNew (d : BReg) :
    exec (.bvNew d) s = .next ((s.writeBuf d (List.replicate s.byteWidth 0)).complete false) := rfl

theorem exec_bvLen (d : XReg) : exec (.bvLen d) s = .next ((s.writeX d (zext64 s.width)).complete false) := rfl

theorem exec_bvBitat (d : XReg) (a : BReg) (b : XReg) :
    exec (.bvBitat d a b) s =
      .next ((s.writeX d (if s.bitAccessible (s.readBuf a) (s.readX b).toNat then
        boolWord (getBit (s.readBuf a) (s.readX b).toNat) else 0)).complete false) := rfl

theorem exec_bvSetbit (d : BReg) (a : XReg) (v : Bool) :
    exec (.bvSetbit d a v) s =
      .next ((if s.bitAccessible (s.readBuf d) (s.readX a).toNat then
        s.writeBuf d (setBit (s.readBuf d) (s.readX a).toNat v) else s).complete false) := rfl

theorem exec_bvCount (d : XReg) (a : BReg) :
    exec (.bvCount d a) s = .next ((s.writeX d (zext64 (popcount (s.seen (s.readBuf a))))).complete false) := rfl

theorem exec_bvBytes (d a : BReg) :
    exec (.bvBytes d a) s = .next ((s.writeBuf d (s.seen (s.readBuf a))).complete false) := rfl

theorem exec_bvIndices (d : XReg) (a : BReg) :
    exec (.bvIndices d a) s =
      .next (((s.writeListing (setPositions (s.seen (s.readBuf a)))).writeX d
        (zext64 (setPositions (s.seen (s.readBuf a))).length)).complete false) := rfl

theorem exec_bvContains (d : XReg) (a b : BReg) (h : (s.readBuf a).length = (s.readBuf b).length) :
    exec (.bvContains d a b) s =
      .next ((s.writeX d (boolWord (bytesContain (s.readBuf a) (s.readBuf b)))).complete false) := by
  simp only [exec, execBvContains, withPair_of_eq h, retire_success]

theorem exec_bvOverlaps (d : XReg) (a b : BReg) (h : (s.readBuf a).length = (s.readBuf b).length) :
    exec (.bvOverlaps d a b) s =
      .next ((s.writeX d (boolWord (bytesOverlap (s.readBuf a) (s.readBuf b)))).complete false) := by
  simp only [exec, execBvOverlaps, withPair_of_eq h, retire_success]

theorem exec_bvOr (d a b : BReg) (h : (s.readBuf a).length = (s.readBuf b).length) :
    exec (.bvOr d a b) s = .next ((s.writeBuf d (bytesOr (s.readBuf a) (s.readBuf b))).complete false) := by
  simp only [exec, execBvOr, withPair_of_eq h, retire_success]

theorem exec_bvShift (d : BReg) (a : XReg) :
    exec (.bvShift d a) s =
      .next ((if (s.readBuf d).length = 0 then s
        else s.writeBuf d (s.tailClear (shiftBytes s.build.shiftOrder (s.readBuf d) (sint64 (s.readX a))))).complete
          false) := rfl

/-- On operands of different lengths the three set-algebra commands complete with LMERR = 1 and write nothing else
(42_bitvector_setalgebra.md R140). -/
theorem exec_of_mismatch (i : Instr) (h : operandsMismatch s i = true) : exec i s = .next (s.complete true) := by
  cases i <;> simp [operandsMismatch] at h <;>
    simp only [exec, execBvContains, execBvOverlaps, execBvOr, withPair_of_ne h, retire_lengthMismatch]

/-- A malformed bitlist operand (40_bitlist.md R101). -/
theorem exec_of_malformed (b : BReg) (h : malformed (s.readBuf b)) (i : Instr)
    (hi : (∃ d x, i = .blBitat d b x) ∨ (∃ x v, i = .blSetbit b x v) ∨ (∃ d, i = .blLen d b) ∨ (∃ d, i = .blBytes d b) ∨
      (∃ d, i = .blCount d b)) :
    exec i s = .next (s.enterFault .malformedBitlist (cmdValue i)) := by
  rcases hi with ⟨d, x, rfl⟩ | ⟨x, v, rfl⟩ | ⟨d, rfl⟩ | ⟨d, rfl⟩ | ⟨d, rfl⟩ <;>
    simp only [exec, execBlBitat, execBlSetbit, execBlLen, execBlBytes, execBlCount, withBitlist_of_malformed h,
      retire_fault]

end Answers

/-! ### The memories' canonical form -/

theorem Memory_wf_iff (s : State) :
    Memory.wf s = true ↔
      (∀ b, (s.readBuf b).length ≤ s.build.maxb) ∧ s.idx.length ≤ 8 * s.build.maxb ∧ s.idxCnt.toNat = s.idx.length := by
  have h : (s.buf.toList.all fun bytes => decide (bytes.length ≤ s.build.maxb)) = true ↔
      ∀ b, (s.readBuf b).length ≤ s.build.maxb := by
    simp only [List.all_eq_true, decide_eq_true_eq, State.readBuf]
    constructor
    · intro h b
      exact h _ (by simp)
    · intro h bytes hb
      obtain ⟨i, hi, rfl⟩ := List.getElem_of_mem hb
      simpa using h ⟨i, by simpa using hi⟩
  simp [Memory.wf, ← h, and_assoc]

/-- A register write keeps the memories. -/
theorem Memory_wf_writeX {s : State} (h : Memory.wf s = true) (r : XReg) (v : Word) : Memory.wf (s.writeX r v) = true := by
  simpa [Memory_wf_iff] using h

/-- A buffer write of at most MAXB bytes keeps the canonical form. -/
theorem Memory_wf_writeBuf {s : State} (h : Memory.wf s = true) (b : BReg) {bytes : List Byte}
    (hb : bytes.length ≤ s.build.maxb) : Memory.wf (s.writeBuf b bytes) = true := by
  rw [Memory_wf_iff] at h ⊢
  refine ⟨fun c => ?_, h.2⟩
  rw [readBuf_writeBuf]
  split
  · exact hb
  · exact h.1 c

/-- A listing of at most 8*MAXB positions keeps the canonical form. -/
theorem Memory_wf_writeListing {s : State} (h : Memory.wf s = true) {positions : List Nat}
    (hp : positions.length ≤ 8 * s.build.maxb) : Memory.wf (s.writeListing positions) = true := by
  rw [Memory_wf_iff] at h ⊢
  have : s.build.maxb ≤ 1024 := by have := s.build.words.isLt; simp [Build.maxb]; omega
  refine ⟨h.1, by simpa using hp, ?_⟩
  simp [zext64]
  omega

theorem Memory_wf_complete {s : State} (h : Memory.wf s = true) (m : Bool) : Memory.wf (s.complete m) = true := by
  simpa [Memory_wf_iff] using h

theorem Memory_wf_enterFault {s : State} (h : Memory.wf s = true) (cause : FaultCause) (w : Word) :
    Memory.wf (s.enterFault cause w) = true := by
  simpa [Memory_wf_iff] using h

/-- Reset leaves empty memories. -/
theorem Memory_wf_resetOf (build : Build) : Memory.wf (State.resetOf build) = true := by
  simp [Memory.wf, State.resetOf]

theorem Memory_wf_resetUnit (s : State) : Memory.wf s.resetUnit = true := Memory_wf_resetOf s.build

/-- The default build's reset memory has the canonical form. -/
theorem Memory_wf_reset : Memory.wf State.reset = true := Memory_wf_resetOf Build.standard

/-- A BLEN write keeps the canonical form (20_memory.md R60). -/
theorem Memory_wf_writeBlen {s : State} (h : Memory.wf s = true) (b : BReg) (v : Word) :
    Memory.wf (s.writeBlen b v) = true := by
  unfold State.writeBlen
  split
  · exact Memory_wf_writeBuf h b (by simp; omega)
  · exact h

@[simp] theorem length_mergeWord (bytes : List Byte) (j : Nat) (v : Word) : (mergeWord bytes j v).length = bytes.length := by
  simp [mergeWord]

/-- A BUFDATA write keeps the canonical form (20_memory.md R59). -/
theorem Memory_wf_writeBufData {s : State} (h : Memory.wf s = true) (b : BReg) (j : Nat) (v : Word) :
    Memory.wf (s.writeBufData b j v) = true :=
  Memory_wf_writeBuf h b (by simpa using ((Memory_wf_iff s).mp h).1 b)

end Sys2Proof.Laws
end

