-- ==== Sys2Proof/Laws/PerInstr.lean ====
section
/-! SUPPORT. The family `EncodedRow`: the word of a command selects a row of the opcode table that reads the command back
(30_encoding.md R79, R84). One lemma per constructor of `Instr`. -/

namespace Sys2Proof.Laws

/-- The command's word matches the code and mask of some row, and that row's fields give the command. -/
def EncodedRow.Statement (i : Instr) : Prop :=
  ∃ r ∈ opcodeTable, encode i &&& r.mask = r.code ∧ r.mnemonic.instr (encode i) = i

/-- A row that passes both checks is a witness of the statement. -/
theorem encodedRow_of_row (i : Instr) (n : Fin 18)
    (h : encode i &&& (opcodeTable[n]).mask = (opcodeTable[n]).code ∧ (opcodeTable[n]).mnemonic.instr (encode i) = i) :
    EncodedRow.Statement i :=
  ⟨opcodeTable[n], List.getElem_mem _, h⟩

theorem EncodedRow.nop : EncodedRow.Statement .nop :=
  encodedRow_of_row _ 0 (by decide)

theorem EncodedRow.blNew (d : Fin 8) (a : Fin 8) : EncodedRow.Statement (.blNew d a) :=
  encodedRow_of_row _ 1 (by revert d a; decide)

theorem EncodedRow.blLen (d : Fin 8) (a : Fin 8) : EncodedRow.Statement (.blLen d a) :=
  encodedRow_of_row _ 2 (by revert d a; decide)

theorem EncodedRow.blBitat (d : Fin 8) (a : Fin 8) (b : Fin 8) : EncodedRow.Statement (.blBitat d a b) :=
  encodedRow_of_row _ 3 (by revert d a b; decide)

theorem EncodedRow.blSetbit (d : Fin 8) (a : Fin 8) (v : Bool) : EncodedRow.Statement (.blSetbit d a v) :=
  encodedRow_of_row _ 4 (by revert d a v; decide)

theorem EncodedRow.blCount (d : Fin 8) (a : Fin 8) : EncodedRow.Statement (.blCount d a) :=
  encodedRow_of_row _ 5 (by revert d a; decide)

theorem EncodedRow.blBytes (d : Fin 8) (a : Fin 8) : EncodedRow.Statement (.blBytes d a) :=
  encodedRow_of_row _ 6 (by revert d a; decide)

theorem EncodedRow.bvNew (d : Fin 8) : EncodedRow.Statement (.bvNew d) :=
  encodedRow_of_row _ 7 (by revert d; decide)

theorem EncodedRow.bvLen (d : Fin 8) : EncodedRow.Statement (.bvLen d) :=
  encodedRow_of_row _ 8 (by revert d; decide)

theorem EncodedRow.bvBitat (d : Fin 8) (a : Fin 8) (b : Fin 8) : EncodedRow.Statement (.bvBitat d a b) :=
  encodedRow_of_row _ 9 (by revert d a b; decide)

theorem EncodedRow.bvSetbit (d : Fin 8) (a : Fin 8) (v : Bool) : EncodedRow.Statement (.bvSetbit d a v) :=
  encodedRow_of_row _ 10 (by revert d a v; decide)

theorem EncodedRow.bvCount (d : Fin 8) (a : Fin 8) : EncodedRow.Statement (.bvCount d a) :=
  encodedRow_of_row _ 11 (by revert d a; decide)

theorem EncodedRow.bvBytes (d : Fin 8) (a : Fin 8) : EncodedRow.Statement (.bvBytes d a) :=
  encodedRow_of_row _ 12 (by revert d a; decide)

theorem EncodedRow.bvIndices (d : Fin 8) (a : Fin 8) : EncodedRow.Statement (.bvIndices d a) :=
  encodedRow_of_row _ 13 (by revert d a; decide)

theorem EncodedRow.bvContains (d : Fin 8) (a : Fin 8) (b : Fin 8) : EncodedRow.Statement (.bvContains d a b) :=
  encodedRow_of_row _ 14 (by revert d a b; decide)

theorem EncodedRow.bvOverlaps (d : Fin 8) (a : Fin 8) (b : Fin 8) : EncodedRow.Statement (.bvOverlaps d a b) :=
  encodedRow_of_row _ 15 (by revert d a b; decide)

theorem EncodedRow.bvOr (d : Fin 8) (a : Fin 8) (b : Fin 8) : EncodedRow.Statement (.bvOr d a b) :=
  encodedRow_of_row _ 16 (by revert d a b; decide)

theorem EncodedRow.bvShift (d : Fin 8) (a : Fin 8) : EncodedRow.Statement (.bvShift d a) :=
  encodedRow_of_row _ 17 (by revert d a; decide)

end Sys2Proof.Laws
end

