-- ==== Sys2Proof/Laws/Port.lean ====
section
/-! SUPPORT. What a command, a port access and a step can do, said once: every command's outcome, the MMIO map in both directions,
and the effect of one served event. -/

namespace Sys2Proof.Laws

open Sys2Proof.Machine

/-! ### Commands -/

/-- What a command that completes can do, BV.INDICES aside: write nothing, one scalar or one buffer (30_encoding.md R95). -/
inductive Completed (s : State) : Bool → State → Prop
  | none m : Completed s m (s.complete m)
  | x m d v : Completed s m ((s.writeX d v).complete m)
  | buf m d l : Completed s m ((s.writeBuf d l).complete m)

/-- Every command faults, completes with at most one register written, or is BV.INDICES. -/
theorem exec_cases (i : Instr) (s : State) :
    (∃ c, c ≠ .none ∧ exec i s = .next (s.enterFault c (cmdValue i))) ∨
    (∃ t, exec i s = .next t ∧ Completed s (operandsMismatch s i) t) ∨
    (∃ d a, i = .bvIndices d a) := by
  cases i with
  | nop => exact .inr (.inl ⟨_, rfl, .none _⟩)
  | blNew d a =>
    rcases Nat.lt_or_ge (8 * s.build.maxb - 1) (s.readX a).toNat with h | h
    · exact .inl ⟨_, by decide, exec_blNew_of_gt s d a h⟩
    · exact .inr (.inl ⟨_, exec_blNew_of_le s d a h, .buf _ _ _⟩)
  | blLen d a =>
    by_cases h : malformed (s.readBuf a)
    · exact .inl ⟨_, by decide, exec_of_malformed s a h _ (by simp)⟩
    · exact .inr (.inl ⟨_, exec_blLen s d a ((blWf_iff_not_malformed _).mpr h), .x _ _ _⟩)
  | blBitat d a b =>
    by_cases h : malformed (s.readBuf a)
    · exact .inl ⟨_, by decide, exec_of_malformed s a h _ (by simp)⟩
    · exact .inr (.inl ⟨_, exec_blBitat s d a b ((blWf_iff_not_malformed _).mpr h), .x _ _ _⟩)
  | blSetbit d a v =>
    by_cases h : malformed (s.readBuf d)
    · exact .inl ⟨_, by decide, exec_of_malformed s d h _ (by simp)⟩
    · refine .inr (.inl ⟨_, exec_blSetbit s d a v ((blWf_iff_not_malformed _).mpr h), ?_⟩)
      split
      · exact .buf _ _ _
      · exact .none _
  | blCount d a =>
    by_cases h : malformed (s.readBuf a)
    · exact .inl ⟨_, by decide, exec_of_malformed s a h _ (by simp)⟩
    · exact .inr (.inl ⟨_, exec_blCount s d a ((blWf_iff_not_malformed _).mpr h), .x _ _ _⟩)
  | blBytes d a =>
    by_cases h : malformed (s.readBuf a)
    · exact .inl ⟨_, by decide, exec_of_malformed s a h _ (by simp)⟩
    · exact .inr (.inl ⟨_, exec_blBytes s d a ((blWf_iff_not_malformed _).mpr h), .buf _ _ _⟩)
  | bvNew d => exact .inr (.inl ⟨_, rfl, .buf _ _ _⟩)
  | bvLen d => exact .inr (.inl ⟨_, rfl, .x _ _ _⟩)
  | bvBitat d a b => exact .inr (.inl ⟨_, rfl, .x _ _ _⟩)
  | bvSetbit d a v =>
    refine .inr (.inl ⟨_, exec_bvSetbit s d a v, ?_⟩)
    split
    · exact .buf _ _ _
    · exact .none _
  | bvCount d a => exact .inr (.inl ⟨_, rfl, .x _ _ _⟩)
  | bvBytes d a => exact .inr (.inl ⟨_, rfl, .buf _ _ _⟩)
  | bvIndices d a => exact .inr (.inr ⟨d, a, rfl⟩)
  | bvContains d a b =>
    by_cases h : (s.readBuf a).length = (s.readBuf b).length
    · rw [show operandsMismatch s (.bvContains d a b) = false by simp [operandsMismatch, h]]
      exact .inr (.inl ⟨_, exec_bvContains s d a b h, .x _ _ _⟩)
    · have hm : operandsMismatch s (.bvContains d a b) = true := by simp [operandsMismatch, h]
      rw [hm]; exact .inr (.inl ⟨_, exec_of_mismatch s _ hm, .none _⟩)
  | bvOverlaps d a b =>
    by_cases h : (s.readBuf a).length = (s.readBuf b).length
    · rw [show operandsMismatch s (.bvOverlaps d a b) = false by simp [operandsMismatch, h]]
      exact .inr (.inl ⟨_, exec_bvOverlaps s d a b h, .x _ _ _⟩)
    · have hm : operandsMismatch s (.bvOverlaps d a b) = true := by simp [operandsMismatch, h]
      rw [hm]; exact .inr (.inl ⟨_, exec_of_mismatch s _ hm, .none _⟩)
  | bvOr d a b =>
    by_cases h : (s.readBuf a).length = (s.readBuf b).length
    · rw [show operandsMismatch s (.bvOr d a b) = false by simp [operandsMismatch, h]]
      exact .inr (.inl ⟨_, exec_bvOr s d a b h, .buf _ _ _⟩)
    · have hm : operandsMismatch s (.bvOr d a b) = true := by simp [operandsMismatch, h]
      rw [hm]; exact .inr (.inl ⟨_, exec_of_mismatch s _ hm, .none _⟩)
  | bvShift d a =>
    refine .inr (.inl ⟨_, exec_bvShift s d a, ?_⟩)
    split
    · exact .none _
    · exact .buf _ _ _

theorem Completed.control {s t : State} {m : Bool} (h : Completed s m t) :
    completes m s t ∧ sameControl s t ∧ sameListing s t := by
  cases h <;> simp [completes, sameControl, sameListing]

/-- Every command answers a next state: it faults, or completes and leaves the control state. -/
theorem exec_next (i : Instr) (s : State) :
    (∃ c, c ≠ .none ∧ exec i s = .next (s.enterFault c (cmdValue i))) ∨
    (∃ t, exec i s = .next t ∧ completes (operandsMismatch s i) s t ∧ sameControl s t ∧
      ((∃ d a, i = .bvIndices d a) ∨ sameListing s t)) := by
  rcases exec_cases i s with h | ⟨t, h1, h2⟩ | ⟨d, a, rfl⟩
  · exact .inl h
  · exact .inr ⟨t, h1, h2.control.1, h2.control.2.1, .inr h2.control.2.2⟩
  · exact .inr ⟨_, exec_bvIndices s d a, completes_complete _ _ _ rfl,
      (changesOnlyListing_writeListing s d _ _ _).2.2, .inl ⟨d, a, rfl⟩⟩

/-! ### The MMIO map (20_memory.md R53, R56, R57) -/

theorem accessedReg_some {b : Build} {off : Offset} {n : Nat} {r : MmioReg} (h : accessedReg b off n = some r) :
    n = 8 ∧ mmioReg b off = some r := by
  unfold accessedReg at h; split at h
  · exact ⟨‹_›, h⟩
  · simp at h

theorem mmioReg_x {b : Build} (off : Offset) (r : XReg) (h : off.toNat = 0x100 + 8 * r.val) :
    mmioReg b off = some (.x r) := by
  have hr := r.isLt
  unfold mmioReg
  simp only [h]
  rw [if_neg (by omega), if_neg (by omega), if_pos (by omega)]
  congr 2
  apply Fin.ext
  simp

theorem mmioReg_blen {b : Build} (off : Offset) (r : BReg) (h : off.toNat = 0x200 + 8 * r.val) :
    mmioReg b off = some (.blen r) := by
  have hr := r.isLt
  unfold mmioReg
  simp only [h]
  rw [if_neg (by omega), if_neg (by omega), if_neg (by omega), if_pos (by omega)]
  congr 2
  apply Fin.ext
  simp
/-- MAXB is a multiple of 8 in 8..1024 (00_scope.md R8). -/
theorem maxb_bounds (b : Build) : 8 ≤ b.maxb ∧ b.maxb % 8 = 0 ∧ b.maxb ≤ 1024 := by
  have := b.words.isLt; simp [Build.maxb]; omega

theorem mmioReg_bufData {b : Build} (off : Offset) (r : BReg) (j : Nat) (hj : j < b.maxb / 8)
    (h : off.toNat = 0x1000 + r.val * b.maxb + 8 * j) : mmioReg b off = some (.bufData r j) := by
  have hr := r.isLt
  obtain ⟨h1, h2, h3⟩ := maxb_bounds b
  have hle : r.val * b.maxb ≤ 7 * b.maxb := Nat.mul_le_mul_right _ (by omega)
  have hm : r.val * b.maxb % 8 = 0 := by rw [Nat.mul_mod, h2]; simp
  unfold mmioReg
  simp only [h]
  rw [if_neg (by omega), if_neg (by omega), if_neg (by omega), if_neg (by omega), if_pos (by omega)]
  have e1 : (4096 + r.val * b.maxb + 8 * j - 4096) / b.maxb = r.val := by
    rw [show 4096 + r.val * b.maxb + 8 * j - 4096 = 8 * j + r.val * b.maxb by omega, Nat.add_mul_div_right _ _ (by omega), Nat.div_eq_of_lt (by omega)]; omega
  have e2 : (4096 + r.val * b.maxb + 8 * j - 4096) % b.maxb = 8 * j := by
    rw [show 4096 + r.val * b.maxb + 8 * j - 4096 = 8 * j + r.val * b.maxb by omega, Nat.add_mul_mod_self_right, Nat.mod_eq_of_lt (by omega)]
  rw [e1, e2, show 8 * j / 8 = j by omega, show Fin.ofNat 8 r.val = r from Fin.ext (by simp)]

theorem mmioReg_idx {b : Build} (off : Offset) (k : Nat) (hk : k < 8 * b.maxb) (h : off.toNat = 0x10000 + 8 * k) :
    mmioReg b off = some (.idx k) := by
  obtain ⟨h1, h2, h3⟩ := maxb_bounds b
  unfold mmioReg
  simp only [h]
  rw [if_neg (by omega), if_neg (by omega), if_neg (by omega), if_neg (by omega), if_neg (by omega), if_pos (by omega)]
  congr 2
  omega
/-- An illegal access reaches no register. -/
theorem accessedReg_of_illegal {b : Build} (off : Offset) (n : Nat) (h : illegalAccess b off.toNat n) :
    accessedReg b off n = none := by
  obtain ⟨h1, h2, h3⟩ := maxb_bounds b
  have := off.isLt
  unfold accessedReg illegalAccess at *
  split
  · unfold mmioReg
    simp only
    split
    · rfl
    · rw [if_neg (by omega), if_neg (by omega), if_neg (by omega), if_neg (by omega), if_neg (by omega)]
  · rfl

theorem mmioReg_control {b : Build} (off : Offset) (r : MmioReg) (h : (off.toNat, r) ∈ controlOffsets) :
    mmioReg b off = some r := by
  simp only [controlOffsets, List.mem_cons, List.not_mem_nil, or_false, Prod.mk.injEq] at h
  rcases h with ⟨h, rfl⟩ | ⟨h, rfl⟩ | ⟨h, rfl⟩ | ⟨h, rfl⟩ | ⟨h, rfl⟩ | ⟨h, rfl⟩ | ⟨h, rfl⟩ | ⟨h, rfl⟩ | ⟨h, rfl⟩ <;> simp [mmioReg, h]

/-- Every offset that has a register, with the register. -/
theorem mmioReg_some {b : Build} {off : Offset} {r : MmioReg} (h : mmioReg b off = some r) :
    (off.toNat, r) ∈ controlOffsets ∨ (∃ x : XReg, r = .x x ∧ off.toNat = 0x100 + 8 * x.val) ∨
    (∃ x : BReg, r = .blen x ∧ off.toNat = 0x200 + 8 * x.val) ∨
    (∃ (x : BReg) (j : Nat), r = .bufData x j ∧ j < b.maxb / 8 ∧ off.toNat = 0x1000 + x.val * b.maxb + 8 * j) ∨
    (∃ k, r = .idx k ∧ k < 8 * b.maxb ∧ off.toNat = 0x10000 + 8 * k) := by
  obtain ⟨h1, h2, h3⟩ := maxb_bounds b
  unfold mmioReg at h
  simp only at h
  split at h
  · simp at h
  rename_i hal
  split at h
  · left
    rename_i hlt
    generalize off.toNat = o at *
    have : o = 0 ∨ o = 8 ∨ o = 16 ∨ o = 24 ∨ o = 32 ∨ o = 40 ∨ o = 48 ∨ o = 56 ∨ o = 64 := by omega
    rcases this with rfl | rfl | rfl | rfl | rfl | rfl | rfl | rfl | rfl <;> simp at h <;> subst h <;> simp [controlOffsets]
  split at h
  · right; left
    refine ⟨Fin.ofNat 8 ((off.toNat - 256) / 8), by simpa using h.symm, ?_⟩
    simp; omega
  split at h
  · right; right; left
    refine ⟨Fin.ofNat 8 ((off.toNat - 512) / 8), by simpa using h.symm, ?_⟩
    simp; omega
  split at h
  · right; right; right; left
    rename_i hd
    have hq : (off.toNat - 4096) / b.maxb < 8 := by rw [Nat.div_lt_iff_lt_mul (by omega)]; omega
    have hdm := Nat.div_add_mod (off.toNat - 4096) b.maxb
    have hml := Nat.mod_lt (off.toNat - 4096) (show 0 < b.maxb by omega)
    have e1 : (b.maxb * ((off.toNat - 4096) / b.maxb)) % 8 = 0 := by rw [Nat.mul_mod, h2]; simp
    refine ⟨Fin.ofNat 8 ((off.toNat - 4096) / b.maxb), (off.toNat - 4096) % b.maxb / 8, by simpa using h.symm, by omega, ?_⟩
    simp only [Fin.ofNat, Nat.mod_eq_of_lt hq]
    rw [Nat.mul_comm _ b.maxb]; omega
  split at h
  · right; right; right; right
    exact ⟨(off.toNat - 65536) / 8, by simpa using h.symm, by omega, by omega⟩
  · simp at h

theorem offset_eq_ofNat {off : Offset} {n : Nat} (h : off.toNat = n) : off = BitVec.ofNat 17 n := by
  apply BitVec.eq_of_toNat_eq; simp; omega

/-! ### One event and one step -/

/-- What serving one event can do to the unit; the response is accounted for in `s`. -/
inductive Served (s t : State) : HostEvent → Prop
  | same e : t = s → Served s t e
  | reset : t = s.resetUnit → Served s t .rst
  | ctrl v : v.getLsbD 0 = true → t = s.resetUnit → Served s t (.write 0x38 8 v)
  | cfg v : t = s.writeCfg v → Served s t (.write 0x10 8 v)
  | x off r v : off.toNat = 0x100 + 8 * r.val → t = s.writeX r v → Served s t (.write off 8 v)
  | blen off b v : off.toNat = 0x200 + 8 * b.val → t = s.writeBlen b v → Served s t (.write off 8 v)
  | data off b j v : t = s.writeBufData b j v → Served s t (.write off 8 v)
  | cmd w : cmdWrite w s = .next t → Served s t (.write 0x20 8 w)

/-- Serving an event returns one response to an access and none to a reset, and has the effect `Served` lists. -/
theorem serve_next {e : HostEvent} {s t : State} (h : serve e s = .next t) :
    ∃ rs, Served { s with responses := s.responses ++ rs } t e ∧ rs.length = if e != .rst then 1 else 0 := by
  cases e with
  | read off n =>
    simp only [serve, Host.Outcome.next.injEq] at h
    subst h
    unfold serveRead
    split
    · exact ⟨[_], .same _ rfl, rfl⟩
    · exact ⟨[_], .same _ rfl, rfl⟩
  | rst =>
    simp only [serve, Host.Outcome.next.injEq] at h
    subst h
    exact ⟨[], .reset (by simp), rfl⟩
  | write off n v =>
    refine (?_ : ∃ r : HostResponse, Served { s with responses := s.responses ++ [r] } t (.write off n v)).elim fun r h => ⟨[r], h, rfl⟩
    simp only [serve, serveWrite] at h
    split at h
    · rename_i r hr
      refine ⟨.write .okay, ?_⟩
      change writeReg r v { s with responses := s.responses ++ [HostResponse.write .okay] } = .next t at h
      generalize { s with responses := s.responses ++ [HostResponse.write .okay] } = s' at h ⊢
      obtain ⟨rfl, hr⟩ := accessedReg_some hr
      rcases mmioReg_some hr with hc | ⟨x, rfl, ho⟩ | ⟨b, rfl, ho⟩ | ⟨b, j, rfl, hj, ho⟩ | ⟨k, rfl, hk, ho⟩
      · simp only [controlOffsets, List.mem_cons, List.not_mem_nil, or_false, Prod.mk.injEq] at hc
        rcases hc with ⟨ho, rfl⟩ | ⟨ho, rfl⟩ | ⟨ho, rfl⟩ | ⟨ho, rfl⟩ | ⟨ho, rfl⟩ | ⟨ho, rfl⟩ | ⟨ho, rfl⟩ | ⟨ho, rfl⟩ | ⟨ho, rfl⟩ <;> simp only [writeReg, Host.Outcome.next.injEq] at h
        · exact .same _ h.symm
        · exact .same _ h.symm
        · rw [offset_eq_ofNat ho]; exact .cfg _ h.symm
        · exact .same _ h.symm
        · rw [offset_eq_ofNat ho]; exact .cmd _ h
        · exact .same _ h.symm
        · exact .same _ h.symm
        · rw [offset_eq_ofNat ho]
          unfold State.writeCtrl at h
          split at h
          · exact .ctrl _ ‹_› h.symm
          · exact .same _ h.symm
        · exact .same _ h.symm
      all_goals simp only [writeReg, Host.Outcome.next.injEq] at h
      · exact .x _ _ _ ho h.symm
      · exact .blen _ _ _ ho h.symm
      · exact .data _ b j _ h.symm
      · exact .same _ h.symm
    · rename_i hn
      simp only [Host.Outcome.next.injEq] at h
      exact ⟨_, .same _ h.symm⟩

/-- Every event is served. -/
theorem serve_total (e : HostEvent) (s : State) : ∃ t, serve e s = .next t := by
  cases e with
  | read => exact ⟨_, rfl⟩
  | rst => exact ⟨_, rfl⟩
  | write off n v =>
    simp only [serve, serveWrite]
    split
    · rename_i r _
      cases r <;> try exact ⟨_, rfl⟩
      simp only [writeReg, cmdWrite]
      split
      · exact ⟨_, rfl⟩
      split
      · exact ⟨_, rfl⟩
      · rename_i i _
        rcases exec_next i (s.respond (.write .okay)) with ⟨c, -, h⟩ | ⟨t, h, -⟩ <;> exact ⟨_, h⟩
    · exact ⟨_, rfl⟩

/-- A CMD write is dropped, takes a fault, or completes a decoded command (30_encoding.md R92 to R95). -/
theorem cmdWrite_cases {w : Word} {s t : State} (h : cmdWrite w s = .next t) :
    (s.faulted = true ∧ t = s) ∨
    (s.faulted = false ∧ ∃ c v, c ≠ .none ∧ t = s.enterFault c v ∧
      (v = w ∨ ∃ i, decode w = .ok i ∧ v = cmdValue i)) ∨
    (s.faulted = false ∧ ∃ i, decode w = .ok i ∧ exec i s = .next t ∧ completes (operandsMismatch s i) s t ∧
      sameControl s t ∧ ((∃ d a, i = .bvIndices d a) ∨ sameListing s t)) := by
  unfold cmdWrite at h
  split at h
  · exact .inl ⟨‹_›, by simpa using h.symm⟩
  · rename_i hf
    right
    refine (?_ : _ ∨ _).imp (fun h => ⟨by simpa using hf, h⟩) (fun h => ⟨by simpa using hf, h⟩)
    split at h
    · exact .inl ⟨.illegalCmd, w, by decide, by simpa using h.symm, .inl rfl⟩
    · rename_i i hd
      rcases exec_next i s with ⟨c, hc, h'⟩ | ⟨u, h', h2, h3, h4⟩
      · exact .inl ⟨c, _, hc, by simpa [h] using h', .inr ⟨i, hd, rfl⟩⟩
      · rw [h] at h'
        cases h'
        exact .inr ⟨i, hd, h, h2, h3, h4⟩

/-- A step serves the oldest event. -/
theorem step_cons {s : State} {e : HostEvent} {rest : List HostEvent} (h : s.requests = e :: rest) :
    step s = serve e { s with requests := rest } := by
  simp [step, servePort, h]
theorem accessedReg_cmd (b : Build) : accessedReg b 0x20 8 = some .cmd := by simp [accessedReg, mmioReg]

/-- Everything a step can do. -/
theorem step_next {s t : State} (h : step s = .next t) :
    (s.requests = [] ∧ t = s) ∨
    ∃ e rest rs, s.requests = e :: rest ∧ (rs.length = if e != .rst then 1 else 0) ∧
      Served { s with requests := rest, responses := s.responses ++ rs } t e := by
  cases hr : s.requests with
  | nil => left; simp [step, servePort, hr] at h; simp [h]
  | cons e rest =>
    right
    rw [step_cons hr] at h
    obtain ⟨rs, h1, h2⟩ := serve_next h
    exact ⟨e, rest, rs, rfl, h2, h1⟩

end Sys2Proof.Laws
end

