-- ==== Sys2Proof/Tests/Slice0.lean ====
section
/-! SUPPORT. The model's own tests. Expected results are the vectors of spec/95_test_vectors.md, named in each comment, or written out
by hand from the encoding rules. -/

namespace Sys2Proof.Tests

open Sys2Proof.Machine

/-! ### Well-formedness: one ill-formed line for each check (30_encoding.md R86, R87) -/

theorem test_wf_refuses_offset : HostLine.wellFormed Build.standard (.rd 0x20000) = false := by decide

theorem test_wf_refuses_write_offset : HostLine.wellFormed Build.standard (.wr 0x20000 0) = false := by decide

theorem test_wf_refuses_large_value : HostLine.wellFormed Build.standard (.li 1 (2 ^ 64)) = false := by decide

theorem test_wf_refuses_small_value : HostLine.wellFormed Build.standard (.setn (-(2 ^ 63) - 1)) = false := by decide

theorem test_wf_refuses_long_ldbuf :
    HostLine.wellFormed { words := 0, shiftOrder := .be } (.ldbuf 0 [1, 2, 3, 4, 5, 6, 7, 8, 9]) = false := by decide

theorem test_wf_accepts_ldbuf :
    HostLine.wellFormed { words := 0, shiftOrder := .be } (.ldbuf 0 [1, 2, 3, 4, 5, 6, 7, 8]) = true := by decide

/-! ### Decoding: each row's word written out from its pattern of 30_encoding.md R84 -/

theorem test_decode_nop : decode 0b00000000000000000000000000000001 = .ok .nop := by decide

theorem test_decode_blNew : decode 0b00000000000000000101001100010000 = .ok (.blNew 3 5) := by decide

theorem test_decode_blLen : decode 0b00000000000000000110001000010001 = .ok (.blLen 2 6) := by decide

theorem test_decode_blBitat : decode 0b00000000000001010110000100010010 = .ok (.blBitat 1 6 5) := by decide

theorem test_decode_blSetbit : decode 0b00000000000100000100011100010011 = .ok (.blSetbit 7 4 true) := by decide

theorem test_decode_blCount : decode 0b00000000000000000001010000010100 = .ok (.blCount 4 1) := by decide

theorem test_decode_blBytes : decode 0b00000000000000000011011000010101 = .ok (.blBytes 6 3) := by decide

theorem test_decode_bvNew : decode 0b00000000000000000000010100100000 = .ok (.bvNew 5) := by decide

theorem test_decode_bvLen : decode 0b00000000000000000000011000100001 = .ok (.bvLen 6) := by decide

theorem test_decode_bvBitat : decode 0b00000000000000110010000100100010 = .ok (.bvBitat 1 2 3) := by decide

theorem test_decode_bvSetbit : decode 0b00000000000000000010010000100011 = .ok (.bvSetbit 4 2 false) := by decide

theorem test_decode_bvCount : decode 0b00000000000000000111000000100100 = .ok (.bvCount 0 7) := by decide

theorem test_decode_bvBytes : decode 0b00000000000000000001001000100101 = .ok (.bvBytes 2 1) := by decide

theorem test_decode_bvIndices : decode 0b00000000000000000001010100100110 = .ok (.bvIndices 5 1) := by decide

theorem test_decode_bvContains : decode 0b00000000000000010010001100100111 = .ok (.bvContains 3 2 1) := by decide

theorem test_decode_bvOverlaps : decode 0b00000000000001000101011000101000 = .ok (.bvOverlaps 6 5 4) := by decide

theorem test_decode_bvOr : decode 0b00000000000001100111011100101001 = .ok (.bvOr 7 7 6) := by decide

theorem test_decode_bvShift : decode 0b00000000000000000101001100101010 = .ok (.bvShift 3 5) := by decide

/-- SY-19: bits 63:32 are checked first. -/
theorem test_decode_high_half : decode 0x0000000100000001 = .error .highHalfNotZero := by decide

/-- SY-4, SY-9: the all-zero word and a reserved opcode. -/
theorem test_decode_reserved : decode 0 = .error .unknownOpcode ∧ decode 0x2B = .error .unknownOpcode := by decide

/-- SY-11 to SY-18: a must-be-zero bit or unused field that is set, one of each kind. -/
theorem test_decode_must_be_zero :
    decode 0x00000101 = .error .mustBeZero ∧ decode 0x00000810 = .error .mustBeZero ∧
    decode 0x00008011 = .error .mustBeZero ∧ decode 0x00010011 = .error .mustBeZero ∧
    decode 0x00080012 = .error .mustBeZero ∧ decode 0x00100012 = .error .mustBeZero ∧
    decode 0x00200013 = .error .mustBeZero ∧ decode 0x80000001 = .error .mustBeZero := by decide

theorem test_decodeTableWord : decodeTableWord 32 0x00102013 = some (.blSetbit 0 2 true) := by decide

/-! ### Small states -/

/-- Reset, with a build, some scalars and some buffers set. -/
def start (xs : List (XReg × Word)) (bufs : List (BReg × List Byte)) (build : Build := Build.standard)
    (vn : BitVec 32 := 16) : State :=
  { bufs.foldl (fun s p => s.writeBuf p.1 p.2) (xs.foldl (fun s p => s.writeX p.1 p.2) (State.resetOf build)) with
    vn := vn }

/-- The LE build of the default capacity. -/
def leBuild : Build := { Build.standard with shiftOrder := .le }

/-- One step from a state whose host writes a word to CMD, if it answers a next state. -/
def cmd (s : State) (w : Nat) : Option State :=
  match step (s.withFetchWord 32 w) with
  | .next t => some t
  | _ => none

/-- The buffer b after a CMD write. -/
def bufAfter (s : State) (w : Nat) (b : BReg) : Option (List Byte) := (cmd s w).map (·.readBuf b)

/-- The scalar r, STATUS and SEQ after a CMD write. -/
def xAfter (s : State) (w : Nat) (r : XReg) : Option (Word × Word × Word) :=
  (cmd s w).map fun t => (t.readX r, t.status, t.seq)

/-- FINFO, STATUS and SEQ after a CMD write. -/
def faultAfter (s : State) (w : Nat) : Option (Word × Word × Word) :=
  (cmd s w).map fun t => (t.finfo, t.status, t.seq)

/-! ### System and decode -/

/-- SY-2. -/
theorem test_nop : (cmd { State.reset with lmerr := true, seq := 5 } 0x1).map (fun t => (t.status, t.seq)) = some (0, 6) := by
  decide

/-- SY-3: SEQ wraps. -/
theorem test_nop_wraps : (cmd { State.reset with seq := -1 } 0x1).map (·.seq) = some 0 := by decide

/-- SY-9. -/
theorem test_illegal : faultAfter State.reset 0x2B = some (0x2B, 0x101, 0) := by decide

/-! ### Bitlists -/

/-- BL-4, BL-9. -/
theorem test_blNew : bufAfter (start [(1, 10)] []) 0x1010 0 = some [0x00, 0x04] ∧
    bufAfter (start [(0, 9)] []) 0x10 0 = some [0x00, 0x02] := by decide

/-- BL-6. -/
theorem test_blNew_capacity : faultAfter (start [(1, 2048)] []) 0x1010 = some (0x1010, 0x201, 0) := by decide

/-- BL-14. -/
theorem test_blLen : xAfter (start [] [(0, [0xFF, 0x03])]) 0x311 3 = some (9, 0, 1) := by decide

/-- BL-18. -/
theorem test_blLen_malformed : faultAfter (start [] [(0, [0x05, 0x00])]) 0x311 = some (0x311, 0x301, 0) := by decide

/-- BL-22: the sentinel position reads 0. -/
theorem test_blBitat_sentinel : xAfter (start [(2, 10), (6, 7)] [(0, [0x08, 0x06])]) 0x20612 6 = some (0, 0, 1) := by decide

/-- BL-25: D = B. -/
theorem test_blBitat_alias : xAfter (start [(2, 9)] [(0, [0x08, 0x06])]) 0x20212 2 = some (1, 0, 1) := by decide

/-- BL-28. -/
theorem test_blSetbit : bufAfter (start [(1, 3)] [(0, [0x00, 0x04])]) 0x101013 0 = some [0x08, 0x04] := by decide

/-- BL-31: the sentinel cannot be cleared. -/
theorem test_blSetbit_sentinel : bufAfter (start [(1, 10)] [(0, [0x00, 0x04])]) 0x1013 0 = some [0x00, 0x04] := by decide

/-- BL-40. -/
theorem test_blCount : xAfter (start [] [(0, [0xFF, 0xFF])]) 0x414 4 = some (15, 0, 1) := by decide

/-- BL-37: the empty bitlist. -/
theorem test_blCount_empty : xAfter (start [(4, 7)] []) 0x414 4 = some (0, 0, 1) := by decide

/-- BL-49: an inner zero byte stays. -/
theorem test_blBytes : bufAfter (start [] [(0, [0x00, 0x05, 0x00, 0x01])]) 0x115 1 = some [0x00, 0x05] := by decide

/-- BL-47, BL-53: sentinel only; D = A. -/
theorem test_blBytes_edges : bufAfter (start [] [(0, [0x00, 0x00, 0x80]), (1, [0x77])]) 0x115 1 = some [] ∧
    bufAfter (start [] [(2, [0x08, 0x06])]) 0x2215 2 = some [0x08, 0x02] := by decide

/-! ### Bitvectors -/

/-- BV-3. -/
theorem test_bvNew : bufAfter (start [] [(2, [1])] Build.standard 12) 0x220 2 = some [0x00, 0x00] := by decide

/-- BV-7. -/
theorem test_bvLen : xAfter (start [] [(0, [1, 2, 3])] Build.standard 4) 0x521 5 = some (4, 0, 1) := by decide

/-- BV-11. -/
theorem test_bvBitat : xAfter (start [(1, 15)] [(0, [0x00, 0x80])]) 0x10222 2 = some (1, 0, 1) := by decide

/-- BV-14, BV-16: an oversized buffer and a tail bit read 0. -/
theorem test_bvBitat_strict : xAfter (start [(1, 1), (2, 7)] [(0, [0x0E, 0x00, 0xFF])]) 0x10222 2 = some (0, 0, 1) ∧
    xAfter (start [(1, 4), (2, 7)] [(0, [0xF0])] Build.standard 4) 0x10222 2 = some (0, 0, 1) := by decide

/-- BV-24. -/
theorem test_bvSetbit : bufAfter (start [(3, 11)] [(2, [0, 0])] Build.standard 12) 0x103223 2 = some [0x00, 0x08] := by decide

/-- BV-25, BV-22: a tail bit and a short buffer are not written. -/
theorem test_bvSetbit_noop : bufAfter (start [(3, 12)] [(2, [0, 0])] Build.standard 12) 0x103223 2 = some [0, 0] ∧
    bufAfter (start [(3, 0)] [(2, [0])]) 0x103223 2 = some [0] := by decide

/-- BV-29, BV-31. -/
theorem test_bvCount : xAfter (start [] [(2, [0xFF, 0x8F, 0xFF])]) 0x2324 3 = some (13, 0, 1) ∧
    xAfter (start [] [(2, [0x00, 0xF8])] Build.standard 12) 0x2324 3 = some (5, 0, 1) := by decide

/-- BV-33, BV-34. -/
theorem test_bvBytes : bufAfter (start [] [(4, [5])]) 0x4525 5 = some [5] ∧
    bufAfter (start [] [(4, [1, 2, 3])]) 0x4525 5 = some [1, 2] := by decide

/-- BV-38. -/
theorem test_bvIndices : (cmd (start [] [(1, [0x13, 0x8F])]) 0x1426).map (fun t => (t.readX 4, t.idxCnt, t.idx)) =
    some (8, 8, [0, 1, 4, 8, 9, 10, 11, 15]) := by decide

/-- BV-45: a new listing replaces the old one. -/
theorem test_bvIndices_replaces :
    (cmd { start [] [(1, [0x01, 0x00])] with idx := [3, 4, 5], idxCnt := 3 } 0x1426).map (fun t => (t.idxCnt, t.readIdx 1)) =
      some (1, 0) := by decide

/-! ### Set algebra and shift -/

/-- SA-1, SA-2. -/
theorem test_bvContains : xAfter (start [(0, 7)] [(0, [0xFF, 0x85]), (1, [0x13, 0x8F])]) 0x10027 0 = some (0, 0, 1) ∧
    xAfter (start [] [(0, [0xFF, 0x8F]), (1, [0x13, 0x8F])]) 0x10027 0 = some (1, 0, 1) := by decide

/-- SA-8: a mismatch leaves x0. -/
theorem test_bvContains_mismatch : xAfter (start [(0, 85)] [(0, [0xFF, 0x85]), (1, [0x13])]) 0x10027 0 = some (85, 2, 1) := by
  decide

/-- SA-9, SA-10. -/
theorem test_bvOverlaps : xAfter (start [] [(0, [0xFF, 0x85]), (1, [0x13, 0x8F])]) 0x10128 1 = some (1, 0, 1) ∧
    xAfter (start [(1, 7)] [(0, [0x0F, 0x00]), (1, [0xF0, 0xFF])]) 0x10128 1 = some (0, 0, 1) := by decide

/-- SA-14. -/
theorem test_bvOverlaps_mismatch : xAfter (start [(1, 85)] [(0, [0xFF, 0x85]), (1, [0x13])]) 0x10128 1 = some (85, 2, 1) := by
  decide

/-- SA-21. -/
theorem test_bvOr : bufAfter (start [] [(7, [1, 2]), (6, [3, 4])]) 0x67729 7 = some [3, 6] := by decide

/-- SA-20: a mismatch with D = A. -/
theorem test_bvOr_mismatch : bufAfter (start [] [(0, [0xFF, 0x85]), (1, [0x13])]) 0x10029 0 = some [0xFF, 0x85] := by decide

/-- SH-2 in BE order; SH-20. -/
theorem test_bvShift_be : bufAfter (start [(4, -1)] [(2, [0x01, 0x23])]) 0x422A 2 = some [0x00, 0x91] ∧
    bufAfter (start [(4, 1)] [(2, [0xFF, 0x0F])] Build.standard 12) 0x422A 2 = some [0xFE, 0x0E] := by decide

/-- SH-2 and SH-20 in LE order; SH-13, the smallest amount. -/
theorem test_bvShift_le : bufAfter (start [(4, -1)] [(2, [0x01, 0x23])] leBuild) 0x422A 2 = some [0x80, 0x11] ∧
    bufAfter (start [(4, 1)] [(2, [0xFF, 0x0F])] leBuild 12) 0x422A 2 = some [0xFE, 0x0F] ∧
    bufAfter (start [(4, 0x8000000000000000)] [(2, [0xFF, 0xFF])] leBuild) 0x422A 2 = some [0, 0] := by decide

/-! ### The port -/

/-- The state after one event, if the step answers a next state. -/
def after (s : State) (e : HostEvent) : Option State :=
  match step { s with requests := [e] } with
  | .next t => some t
  | _ => none

/-- FL-2: a command is dropped while faulted. -/
theorem test_faulted_drops :
    after { State.reset with faulted := true, fcause := .malformedBitlist, finfo := 0x311 } (.write 0x20 8 1) =
      some { State.reset with
        faulted := true, fcause := .malformedBitlist, finfo := 0x311, responses := [.write .okay] } := by decide

/-- FL-6: a soft reset from the faulted state; FL-5: CTRL with bit 0 = 0 does nothing. -/
theorem test_soft_reset :
    (after { start [(3, 85)] [(0, [5, 0])] with faulted := true, fcause := .malformedBitlist } (.write 0x38 8 1)).map
      (fun t => (t.status, t.readX 3, t.readBuf 0)) = some (0, 0, []) ∧
    (after { start [(3, 85)] [] with faulted := true, fcause := .malformedBitlist } (.write 0x38 8 2)).map
      (fun t => (t.status, t.readX 3)) = some (0x301, 85) := by decide

/-- MM-1, MM-2, and PARAM in LE order (P3-LE). -/
theorem test_id_param : (after State.reset (.read 0x0 8)).map (·.responses) = some [.read .okay 0x746544942] ∧
    (after State.reset (.read 0x8 8)).map (·.responses) = some [.read .okay 0x880100] ∧
    (after (State.resetOf leBuild) (.read 0x8 8)).map (·.responses) = some [.read .okay 0x1880100] := by decide

/-- MM-5, MM-6, MM-7: CFG.VN is WARL and bits 63:32 are ignored. -/
theorem test_cfg : (after State.reset (.write 0x10 8 0x800)).map (·.vn) = some 2048 ∧
    (after State.reset (.write 0x10 8 0x801)).map (·.vn) = some 16 ∧
    (after State.reset (.write 0x10 8 0x10000000C)).map (·.vn) = some 12 := by decide

/-- MM-13, MM-14, MM-15, MM-29. -/
theorem test_buserr : (after State.reset (.read 0x48 8)).map (·.responses) = some [.read .busErr 0] ∧
    (after State.reset (.read 0x4 8)).map (·.responses) = some [.read .busErr 0] ∧
    (after State.reset (.read 0x0 4)).map (·.responses) = some [.read .busErr 0] ∧
    (after State.reset (.read 0x14000 8)).map (·.responses) = some [.read .busErr 0] := by decide

/-- MM-18, MM-19 and MM-23: BLEN, then BUFDATA; bytes at or beyond the length are discarded. -/
theorem test_bufdata : (after (start [] [(0, [0, 0])]) (.write 0x1000 8 0x2301)).map (·.readBuf 0) = some [0x01, 0x23] ∧
    (after State.reset (.write 0x1000 8 0x2301)).map (·.readBuf 0) = some [] ∧
    (after (start [] [(1, [0, 0, 0, 0, 0, 0, 0, 0, 0])]) (.write 0x1108 8 0xFFFF)).map (·.readBuf 1) =
      some [0, 0, 0, 0, 0, 0, 0, 0, 0xFF] := by decide

/-- MM-20, MM-21: a shrink and a growth of BLEN; a length above MAXB is ignored. -/
theorem test_blen : (after (start [] [(0, [1, 0x23])]) (.write 0x200 8 1)).map (·.readBuf 0) = some [1] ∧
    (after (start [] [(0, [1])]) (.write 0x200 8 2)).map (·.readBuf 0) = some [1, 0] ∧
    (after State.reset (.write 0x200 8 0x101)).map (·.readBuf 0) = some [] := by decide

/-- MM-25: IDX entry 7. -/
theorem test_idx_read : (after { State.reset with idx := [0, 1, 4, 8, 9, 10, 11, 15], idxCnt := 8 } (.read 0x10038 8)).map
    (·.responses) = some [.read .okay 0xF] := by decide

/-! ### The assembler -/

/-- 30_encoding.md R85: letter case and comment; P1 line 4. -/
theorem test_parse_command : parseLine "bl.SETBIT b0, x2, #1 ; set".toList = some (.cmd (.blSetbit 0 2 true)) := by decide

/-- P3 line 11 and P2 line 1. -/
theorem test_parse_pseudo : parseLine "li x6, -17".toList = some (.li 6 (-17)) ∧
    parseLine "ldbuf b0, [0xFF, 0x85]".toList = some (.ldbuf 0 [0xFF, 0x85]) := by decide

/-- P2 line 2; P4 `rdbuf b0` with 2 bytes. -/
theorem test_accesses : lineAccesses Build.standard 0 (.ldbuf 1 [0x13, 0x8F]) =
      [.write 0x208 8 2, .write 0x1100 8 0x8F13] ∧
    lineAccesses Build.standard 2 (.rdbuf 0) = [.read 0x200 8, .read 0x1000 8] := by decide

/-! ### Witnesses: concrete states and operands that meet the hypotheses of each statement, each clause at a boundary value -/

/-- A step's next state. -/
def nextOf : Host.Outcome State Fault Refusal → Option State
  | .next t => some t
  | _ => none

theorem eq_next {o : Host.Outcome State Fault Refusal} {t : State} (h : nextOf o = some t) : o = .next t := by
  cases o <;> simp_all [nextOf]

/-- A reset unit whose host has issued the events. -/
def asked (events : List HostEvent) : State := { State.reset with requests := events }

/-- A faulted unit whose host has issued the events. -/
def stuck (events : List HostEvent) : State :=
  { State.reset with faulted := true, fcause := .capacity, finfo := 0x10, requests := events }

theorem test_witness_EveryCommandHasOneWord : decode 0x00102013 = .ok (.blSetbit 0 2 true) := by decide

theorem test_witness_DecodingIsTotalAndUnambiguous :
    (⟨.bvShift, 0x2A, 0xFFFF88FF⟩ : Row) ∈ opcodeTable ∧ (0x532A : CmdWord) &&& 0xFFFF88FF = 0x2A := by decide

/-- 30_encoding.md R80: both ends of each range. -/
theorem test_witness_OpcodeSpaceIsAsMapped :
    ([0x00, 0x02, 0x0F, 0x16, 0x1F, 0x2B, 0xFF] : List Word).map (fun w => (decode w).toOption) =
      [none, none, none, none, none, none, none] ∧
    ([0x01, 0x10, 0x15, 0x20, 0x2A] : List Word).map (fun w => (decode w).toOption) =
      [some .nop, some (.blNew 0 0), some (.blBytes 0 0), some (.bvNew 0), some (.bvShift 0 0)] := by decide

theorem test_witness_StepRunsDecodedCommand :
    (asked [.write 0x20 8 0x13]).faulted = false ∧ decode 0x13 = .ok (.blSetbit 0 0 false) := by decide

theorem test_witness_FaultedUnitDropsCommands :
    (stuck [.write 0x20 8 0x1]).requests = [.write 0x20 8 0x1] ∧ (stuck [.write 0x20 8 0x1]).faulted = true := by decide

theorem test_witness_IllegalCommandFaults :
    (asked [.write 0x20 8 0]).faulted = false ∧ decode 0 = .error .unknownOpcode := by decide

theorem test_witness_FaultEntryIsPrecise : ∃ t, step (asked [.write 0x20 8 0]) = .next t ∧
    (asked [.write 0x20 8 0]).faulted = false ∧ t.faulted = true :=
  ⟨{ State.reset with faulted := true, fcause := .illegalCmd, finfo := 0, responses := [.write .okay] },
    eq_next (by decide), rfl, rfl⟩

/-- Both ways out of the faulted state. -/
theorem test_witness_OnlyResetLeavesFault :
    (step (stuck [.rst]) = .next State.reset ∧
      step (stuck [.write 0x38 8 1]) = .next { State.reset with responses := [.write .okay] }) ∧
    (stuck [.rst]).faulted = true ∧ State.reset.faulted = false :=
  ⟨⟨eq_next (by decide), eq_next (by decide)⟩, rfl, rfl⟩

/-- A command and a reset that change the listing. -/
theorem test_witness_OnlyIndicesAndResetWriteListing :
    (∃ t, step ((start [] [(1, [0x01, 0x00])]).withFetchWord 32 0x1426) = .next t ∧
      ¬ sameListing ((start [] [(1, [0x01, 0x00])]).withFetchWord 32 0x1426) t) ∧
    ∃ t, step { asked [.rst] with idx := [3], idxCnt := 1 } = .next t ∧
      ¬ sameListing { asked [.rst] with idx := [3], idxCnt := 1 } t :=
  ⟨⟨{ start [(4, 1)] [(1, [0x01, 0x00])] with idx := [0], idxCnt := 1, seq := 1, responses := [.write .okay] },
      eq_next (by decide), fun h => absurd h.1 (by decide)⟩,
    ⟨State.reset, eq_next (by decide), fun h => absurd h.1 (by decide)⟩⟩

/-- A legal CFG write and a reset that change CFG.VN. -/
theorem test_witness_OnlyHostAndResetWriteWidth :
    (step (asked [.write 0x10 8 12]) = .next { State.reset with vn := 12, responses := [.write .okay] } ∧
      (12 : BitVec 32) ≠ State.reset.vn) ∧
    step { asked [.rst] with vn := 12 } = .next State.reset :=
  ⟨⟨eq_next (by decide), by decide⟩, eq_next (by decide)⟩

/-- A completed, a faulting and a dropped command. -/
theorem test_witness_SeqCountsCompletedCommands :
    (nextOf (step (asked [.write 0x20 8 1]))).map (fun t => (t.faulted, t.seq)) = some (false, 1) ∧
    (nextOf (step (asked [.write 0x20 8 0]))).map (fun t => (t.faulted, t.seq)) = some (true, 0) ∧
    (nextOf (step (stuck [.write 0x20 8 1]))).map (fun t => (t.faulted, t.seq)) = some (true, 0) ∧
    (nextOf (step (asked [.read 0x28 8]))).isSome ∧ (nextOf (step (asked [.write 0x28 8 7]))).map (·.seq) = some 0 := by
  decide

/-- Unfaulted and faulted states that have the invariant, and the step of each. -/
theorem test_witness_StepKeepsInvariant :
    (asked [.write 0x20 8 0]).inv = true ∧ (nextOf (step (asked [.write 0x20 8 0]))).map (·.inv) = some true ∧
    (stuck [.write 0x38 8 1]).inv = true ∧ (nextOf (step (stuck [.write 0x38 8 1]))).map (·.inv) = some true := by decide

theorem test_witness_RunServesEveryEvent :
    nextOf (Host.Core.run Sys2Proof.core 3 (asked [.read 0 8, .rst, .write 0x20 8 1])) =
      some { State.reset with seq := 1, responses := [.read .okay 0x746544942, .write .okay] } := by decide

theorem test_witness_BothResetsRestoreResetState :
    (stuck [.rst]).requests = [.rst] ∧ (stuck [.write 0x38 8 3]).requests = [.write 0x38 8 3] ∧
      (3 : Word).getLsbD 0 = true := by decide

/-- Both ends of each mapped range; the default build has MAXB = 256. -/
theorem test_witness_ReadsHaveNoSideEffect :
    ([0x0, 0x40, 0x100, 0x138, 0x200, 0x238, 0x1000, 0x17F8, 0x10000, 0x13FF8] : List Offset).map
        (fun o => accessedReg Build.standard o 8) =
      [some .id, some .idxCnt, some (.x 0), some (.x 7), some (.blen 0), some (.blen 7), some (.bufData 0 0),
        some (.bufData 7 31), some (.idx 0), some (.idx 2047)] := by decide

/-- Both ends of each range that gets BUSERR, a misaligned offset and a width of 4. -/
theorem test_witness_IllegalWriteHasNoEffect :
    (∀ o ∈ [0x48, 0xF8, 0x140, 0x1F8, 0x240, 0xFF8, 0x1800, 0xFFF8, 0x14000, 0x1FFF8, 0x4],
      illegalAccess Build.standard o 8) ∧ illegalAccess Build.standard 0 4 ∧
    (asked [.write 0x48 8 7]).requests = [.write 0x48 8 7] ∧ (0x48 : Offset).toNat = 0x48 := by
  unfold illegalAccess
  decide

/-- The last read-only control register, CTRL with bit 0 = 0, and both ends of IDX. -/
theorem test_witness_ReadOnlyWritesAreIgnored :
    (asked [.write 0x40 8 7]).requests = [.write 0x40 8 7] ∧ (0x40 : Offset).toNat = 0x40 ∧
    (0x38 : Offset).toNat = 0x38 ∧ (2 : Word).getLsbD 0 = false ∧
    (0x10000 : Offset).toNat = 0x10000 + 8 * 0 ∧ (0x13FF8 : Offset).toNat = 0x10000 + 8 * 2047 ∧
    2047 < 8 * Build.standard.maxb := by decide

/-- The last word of the last buffer; byte 7 of it lies beyond an empty buffer's length. -/
theorem test_witness_BufferWordPacksLittleEndian :
    (asked [.read 0x17F8 8]).requests = [.read 0x17F8 8] ∧
    (0x17F8 : Offset).toNat = 0x1000 + (7 : BReg).val * Build.standard.maxb + 8 * 31 ∧ 31 < Build.standard.maxb / 8 ∧
    ((asked []).readBuf 7).length ≤ 8 * 31 + 7 := by decide

theorem test_witness_BufferDataWriteMergesWord :
    (asked [.write 0x17F8 8 7]).requests = [.write 0x17F8 8 7] ∧
    (0x17F8 : Offset).toNat = 0x1000 + (7 : BReg).val * Build.standard.maxb + 8 * 31 ∧
    31 < Build.standard.maxb / 8 := by decide

/-- MAXB, the largest length a write takes, and the smallest it ignores. -/
theorem test_witness_BufferLengthReadAndWrite :
    (asked [.write 0x238 8 256]).requests = [.write 0x238 8 256] ∧ (0x238 : Offset).toNat = 0x200 + 8 * (7 : BReg).val ∧
    (256 : Word).toNat ≤ Build.standard.maxb ∧ ¬ (257 : Word).toNat ≤ Build.standard.maxb ∧
    (asked [.read 0x238 8]).requests = [.read 0x238 8] := by decide

/-- Both ends of the legal widths and their neighbours. -/
theorem test_witness_ConfigWriteIsChecked :
    ([0, 1, 2048, 2049] : List Word).map (fun v => (after State.reset (.write 0x10 8 v)).map (·.vn)) =
      [some 16, some 1, some 2048, some 16] := by decide

theorem test_witness_ScalarWriteIsServed :
    (stuck [.write 0x138 8 7]).requests = [.write 0x138 8 7] ∧ (0x138 : Offset).toNat = 0x100 + 8 * (7 : XReg).val := by
  decide

/-- A buffer loaded to its capacity, on the build with MAXB = 8, and the empty load. -/
theorem test_witness_LoadBufferLoadsItsBytes :
    let s := State.resetOf { words := 0, shiftOrder := .be }
    s.requests = [] ∧ ([1, 2, 3, 4, 5, 6, 7, 8] : List Byte).length ≤ s.build.maxb ∧
    (nextOf (Host.Core.run Sys2Proof.core 2 (s.issueLine (.ldbuf 7 [1, 2, 3, 4, 5, 6, 7, 8])))).map (·.readBuf 7) =
      some [1, 2, 3, 4, 5, 6, 7, 8] ∧
    (nextOf (Host.Core.run Sys2Proof.core 1 (s.issueLine (.ldbuf 7 [])))).map (·.readBuf 7) = some [] := by decide

/-! Bitlists. -/

/-- The largest length that fits, and the smallest that does not. -/
theorem test_witness_NewBitlist :
    ((start [(1, 2047)] []).readX 1).toNat ≤ 8 * (start [(1, 2047)] []).build.maxb - 1 ∧
    8 * (start [(1, 2048)] []).build.maxb - 1 < ((start [(1, 2048)] []).readX 1).toNat := by decide

theorem test_witness_CapacityFaultsOnlyInNewBitlist :
    ∃ t, exec (.blNew 0 1) (start [(1, 2048)] []) = .next t ∧ t.fcause = .capacity ∧
      (start [(1, 2048)] []).fcause ≠ .capacity :=
  ⟨{ start [(1, 2048)] [] with faulted := true, fcause := .capacity, finfo := 0x1010 }, eq_next (by decide), rfl,
    by decide⟩

theorem test_witness_MalformedBitlistFaults :
    malformed ((start [] [(0, [0x05, 0x00])]).readBuf 0) ∧
    (nextOf (exec (.blNew 0 1) State.reset)).isSome ∧ State.reset.fcause ≠ .malformedBitlist := by
  unfold malformed
  decide

theorem test_witness_BitlistLengthIsSentinelPosition :
    Memory.wf (start [] [(0, [0xFF, 0x03])]) = true ∧ ¬ malformed ((start [] [(0, [0xFF, 0x03])]).readBuf 0) := by
  unfold malformed
  decide

/-- BL-14: a bitlist of length 9 in buffer 0, the empty one in buffer 1, and the indexes on both sides of the sentinel. -/
theorem test_witness_bitlistLength :
    bitlistLength ((start [(1, 8), (2, 9)] [(0, [0xFF, 0x03])]).readBuf 0) 9 ∧
    bitlistLength ((start [(1, 8), (2, 9)] [(0, [0xFF, 0x03])]).readBuf 1) 0 ∧
    ((start [(1, 8), (2, 9)] [(0, [0xFF, 0x03])]).readX 1).toNat < 9 ∧
    ¬ ((start [(1, 8), (2, 9)] [(0, [0xFF, 0x03])]).readX 2).toNat < 9 ∧
    Memory.wf (start [(1, 8), (2, 9)] [(0, [0xFF, 0x03])]) = true :=
  ⟨(by decide : blLen [0xFF, 0x03] = 9) ▸ Laws.bitlistLength_blLen (s := [0xFF, 0x03]) (by decide),
    .inl (by decide), by decide, by decide, by decide⟩

theorem test_witness_BitlistCommandsIgnoreWidthAndListing :
    (nextOf (exec (.blLen 3 0) (start [] [(0, [0xFF, 0x03])]))).isSome ∧
    (nextOf (exec (.blLen 3 0) (start [] [(0, [0x05, 0x00])]))).isSome := by decide

/-! Bitvectors. -/

/-- Index 11 is the last below N = 12; index 12 is a tail bit. -/
theorem test_witness_BitvectorReadAfterWrite :
    let s := start [(3, 11), (4, 12)] [(2, [0, 0]), (1, [0])] Build.standard 12
    (s.readX 3).toNat < s.width ∧ (s.readBuf 2).length = s.byteWidth ∧ ¬ (s.readX 4).toNat < s.width ∧
      ¬ (s.readBuf 1).length = s.byteWidth := by decide

theorem test_witness_CountAgreesWithListing :
    let s := start [] [(2, [0xFF, 0x0F])] Build.standard 12
    (s.readBuf 2).length = s.byteWidth ∧ s.tailClean (s.readBuf 2) := by
  refine ⟨by decide, fun p hp => ?_⟩
  by_cases h : 16 ≤ p
  · exact Laws.getBit_eq_false_of_length_le h
  · have hp : 12 ≤ p := hp
    have : ∀ q : Fin 16, 12 ≤ q.val →
        getBit ((start [] [(2, [0xFF, 0x0F])] Build.standard 12).readBuf 2) q.val = false := by decide
    exact this ⟨p, by omega⟩ hp

/-! Set algebra and shift. -/

/-- Operands of different and of equal lengths, for each of the three commands. -/
theorem test_witness_operandsMismatch :
    let s := start [] [(0, [0xFF, 0x85]), (1, [0x13]), (2, [0x13, 0x8F])]
    operandsMismatch s (.bvContains 0 0 1) = true ∧ operandsMismatch s (.bvOverlaps 0 0 1) = true ∧
      operandsMismatch s (.bvOr 0 0 1) = true ∧ operandsMismatch s (.bvOr 0 0 2) = false ∧
      (s.readBuf 0).length = (s.readBuf 2).length ∧ (3 : BReg) ≠ 0 ∧ (3 : BReg) ≠ 2 := by decide

/-- SA-2 and SA-1: a superset, and no superset. -/
theorem test_witness_ContainsIsBitwiseSuperset :
    let s := start [] [(0, [0xFF, 0x8F]), (1, [0x13, 0x8F]), (2, [0xFF, 0x85])]
    (s.readBuf 0).length = (s.readBuf 1).length ∧
    (∀ p, getBit (s.readBuf 1) p = true → getBit (s.readBuf 0) p = true) ∧
    ¬ ∀ p, getBit (s.readBuf 1) p = true → getBit (s.readBuf 2) p = true := by
  refine ⟨by decide, fun p hp => ?_, fun h => absurd (h 9 (by decide)) (by decide)⟩
  have hlt : p < 16 := Laws.lt_length_of_getBit hp
  have : ∀ q : Fin 16, getBit [0x13, 0x8F] q.val = true → getBit [0xFF, 0x8F] q.val = true := by decide
  exact this ⟨p, hlt⟩ hp

/-- SA-9 and SA-10: a common bit, and none. -/
theorem test_witness_OverlapsIsCommonSetBit :
    let s := start [] [(0, [0x0F, 0x00]), (1, [0xF0, 0xFF]), (2, [0x01, 0x00])]
    (∃ p, getBit (s.readBuf 0) p = true ∧ getBit (s.readBuf 2) p = true) ∧
    ¬ ∃ p, getBit (s.readBuf 0) p = true ∧ getBit (s.readBuf 1) p = true := by
  refine ⟨⟨0, by decide⟩, fun ⟨p, h1, h2⟩ => ?_⟩
  have hlt : p < 16 := Laws.lt_length_of_getBit h1
  have : ∀ q : Fin 16, getBit [0x0F, 0x00] q.val = true → getBit [0xF0, 0xFF] q.val ≠ true := by decide
  exact this ⟨p, hlt⟩ h1 h2

/-- Two left shifts, and two right shifts, of a buffer with no tail. -/
theorem test_witness_ShiftsOfOneSignCompose :
    let s := start [(0, 3), (1, 5), (2, 8), (3, -3), (4, -5), (5, -8)] [(2, [0x01, 0x23])]
    (s.readBuf 2).length = s.byteWidth ∧ s.width % 8 = 0 ∧
    (0 ≤ (s.readX 0).toInt ∧ 0 ≤ (s.readX 1).toInt ∧ (s.readX 2).toInt = (s.readX 0).toInt + (s.readX 1).toInt) ∧
    ((s.readX 3).toInt ≤ 0 ∧ (s.readX 4).toInt ≤ 0 ∧ (s.readX 5).toInt = (s.readX 3).toInt + (s.readX 4).toInt) := by
  decide

/-- A buffer of exactly B bytes and an empty one. -/
theorem test_witness_ShiftNeverRaisesCount :
    let s := start [] [(2, [0x01, 0x23])]
    (s.readBuf 2).length ≤ s.byteWidth ∧ (s.readBuf 3).length ≤ s.byteWidth := by decide

/-! The laws. -/

theorem bitlistLength_of {l : List Byte} {n : Nat} (h : blWf l = true) (e : blLen l = n) : bitlistLength l n :=
  e ▸ Laws.bitlistLength_blLen h

/-- One state for the clauses about bitlists: a length of 9 in buffer 0, read on both sides of it, a sentinel-only bitlist in buffer 1,
another bitlist of length 9 in buffer 3, and the largest n that BL.NEW takes. -/
theorem test_witness_ContainerLawsHold_bitlist :
    let s := start [(0, 2047), (1, 8), (2, 9)] [(0, [0xFF, 0x03]), (1, [0x00, 0x01]), (3, [0x00, 0x02])]
    Memory.wf s = true ∧ (s.readX 0).toNat ≤ 8 * s.build.maxb - 1 ∧
    bitlistLength (s.readBuf 0) 9 ∧ (s.readX 1).toNat < 9 ∧ 9 ≤ (s.readX 2).toNat ∧
    bitlistLength (s.readBuf 1) 8 ∧ (∀ p, p < 8 → getBit (s.readBuf 1) p = false) ∧
    ¬ malformed (s.readBuf 0) ∧ bitlistLength (s.readBuf 3) 9 ∧ s.readBuf 0 ≠ [] ∧ s.readBuf 3 ≠ [] ∧
    (nextOf (exec (.blSetbit 0 1 true) s)).isSome :=
  ⟨by decide, by decide,
    bitlistLength_of (by decide) (by decide), by decide, by decide,
    bitlistLength_of (by decide) (by decide), by decide,
    by unfold malformed; decide,
    bitlistLength_of (by decide) (by decide), by decide, by decide,
    by decide⟩

/-- The clauses about bitvectors: an addressable buffer, the last index below N, and a tail-clean buffer (that one in
`test_witness_CountAgreesWithListing`). -/
theorem test_witness_ContainerLawsHold_bitvector :
    let s := start [(3, 11)] [(2, [0xFF, 0x0F])] Build.standard 12
    Memory.wf s = true ∧ s.addressable (s.readBuf 2) = true ∧ (s.readX 3).toNat < s.width := by decide

/-- 60_exceptions.md R172, read through STATUS by the host. -/
theorem test_fault_codes :
    [FaultCause.none, .illegalCmd, .capacity, .malformedBitlist].map FaultCause.code = [0x00, 0x01, 0x02, 0x03] := by decide

end Sys2Proof.Tests
end

section
/-! PROOFS. The family of 10_state.md: the value of every piece of state after reset (R39) and the command counter SEQ (R34). -/

namespace Sys2Proof.StateProofs

open Sys2Proof.Machine Sys2Proof.Laws

/-! ### The state after reset -/

@[simp] theorem readX_resetOf (build : Build) (r : XReg) : (State.resetOf build).readX r = 0 := by
  simp [State.readX, State.resetOf]

@[simp] theorem readBuf_resetOf (build : Build) (b : BReg) : (State.resetOf build).readBuf b = [] := by
  simp [State.readBuf, State.resetOf]

@[simp] theorem readIdx_resetOf (build : Build) (k : Nat) : (State.resetOf build).readIdx k = 0 := by
  simp [State.readIdx, State.resetOf]

theorem widthLegal_iff (s : State) : s.widthLegal = true ↔ 1 ≤ s.width ∧ s.width ≤ 8 * s.build.maxb := by
  simp [State.widthLegal]

/-- The width 16 after reset is legal in every build, because MAXB is at least 8. -/
theorem widthLegal_resetOf (build : Build) : (State.resetOf build).widthLegal = true := by
  have hwidth : (State.resetOf build).width = 16 := rfl
  have hbuild : (State.resetOf build).build = build := rfl
  obtain ⟨hmaxb, -, -⟩ := maxb_bounds build
  rw [widthLegal_iff, hwidth, hbuild]
  omega

/-- A legal width takes at least one byte. -/
theorem byteWidth_ne_zero {s : State} (h : s.widthLegal = true) : s.byteWidth ≠ 0 := by
  obtain ⟨hpos, -⟩ := (widthLegal_iff s).mp h
  simp only [State.byteWidth, ceilDiv]
  omega

/-- Under a legal width the empty sequence is no bitvector (41_bitvector.md R120). -/
theorem addressable_nil {s : State} (h : s.widthLegal = true) : s.addressable [] = false := by
  simpa [State.addressable] using (byteWidth_ne_zero h).symm

theorem bitlistLength_nil : bitlistLength [] 0 := .inl ⟨rfl, rfl⟩

/-- Concatenation as a sum of powers of two, so that the fields of a register word add up. -/
theorem toNat_append_eq_add {m n : Nat} (hi : BitVec m) (lo : BitVec n) :
    (hi ++ lo).toNat = hi.toNat * 2 ^ n + lo.toNat := by
  rw [BitVec.toNat_append, ← Nat.shiftLeft_add_eq_or_of_lt lo.isLt, Nat.shiftLeft_eq]

/-- PARAM as a number (10_state.md R29). -/
theorem toNat_paramWord (build : Build) :
    (paramWord build).toNat =
      build.maxb + 8 * 2 ^ 16 + 8 * 2 ^ 20 + (if build.shiftOrder = .le then 2 ^ 24 else 0) := by
  obtain ⟨-, -, hmaxb⟩ := maxb_bounds build
  have hmod : build.maxb % 2 ^ 16 = build.maxb := Nat.mod_eq_of_lt (by omega)
  have hbit : (BitVec.ofBool (build.shiftOrder == .le)).toNat = if build.shiftOrder = .le then 1 else 0 := by
    cases build.shiftOrder <;> rfl
  simp only [paramWord, toNat_append_eq_add, BitVec.toNat_ofNat, hmod, hbit]
  split <;> omega

/-- All bits of STATUS are 0 after reset. -/
theorem status_resetOf (build : Build) : (State.resetOf build).status = 0 := by
  simp [State.status, State.resetOf, FaultCause.code]

/-- Settles O18: each register's reset value is read off `State.resetOf`, PARAM is its sum of fields, and B is not 0 after reset
because the width 16 is legal in every build. -/
theorem resetValues : Obligations.ResetValues := by
  refine ⟨fun s => byteWidth_ne_zero, fun build => ?_⟩
  refine ⟨readX_resetOf build, fun b => by simp, fun b i => by simp, readIdx_resetOf build,
    rfl, rfl, status_resetOf build, rfl, rfl, rfl, toNat_paramWord build, rfl, rfl, fun b => ?_⟩
  rw [readBuf_resetOf]
  exact ⟨bitlistLength_nil, addressable_nil (widthLegal_resetOf build)⟩

/-! ### Legal accesses -/

theorem accessedReg_control (build : Build) {off : Offset} {r : MmioReg} (h : (off.toNat, r) ∈ controlOffsets) :
    accessedReg build off 8 = some r := by
  rw [accessedReg, if_pos rfl, mmioReg_control off r h]

/-- The step of a legal read answers the register's value and changes nothing else (20_memory.md R54). -/
theorem step_read {s : State} {off : Offset} {rest : List HostEvent} {r : MmioReg}
    (hreq : s.requests = .read off 8 :: rest) (hreg : accessedReg s.build off 8 = some r) :
    step s = .next { s with requests := rest, responses := s.responses ++ [.read .okay (s.readReg r)] } := by
  rw [step_cons hreq]
  simp only [serve, serveRead, hreg]
  rfl

/-- The step of a legal write is the register's write, the event taken and answered OKAY (20_memory.md R55). -/
theorem step_write {s : State} {off : Offset} {v : Word} {rest : List HostEvent} {r : MmioReg}
    (hreq : s.requests = .write off 8 v :: rest) (hreg : accessedReg s.build off 8 = some r) :
    step s = writeReg r v { s with requests := rest, responses := s.responses ++ [.write .okay] } := by
  rw [step_cons hreq]
  simp only [serve, serveWrite, hreg]
  rfl

/-- Every step ends in a next state: the unit never stops. -/
theorem step_total (s : State) : ∃ t, step s = .next t := by
  cases hreq : s.requests with
  | nil => exact ⟨s, by simp [step, servePort, hreq]⟩
  | cons e rest => rw [step_cons hreq]; exact serve_total e _

/-! ### The command counter -/

/-- A CMD write that ends unfaulted completed a command, and SEQ counts it; a dropped or faulting one leaves SEQ. -/
theorem cmdWrite_seq {w : Word} {s t : State} (h : cmdWrite w s = .next t) :
    (s.faulted = false → t.faulted = false → t.seq = s.seq + 1) ∧
    (s.faulted = true ∨ t.faulted = true → t.seq = s.seq) := by
  rcases cmdWrite_cases h with
    ⟨hs, rfl⟩ | ⟨hs, c, v, -, rfl, -⟩ | ⟨hs, i, -, -, ⟨hseq, -⟩, ⟨-, -, hfaulted, -⟩, -⟩
  case inl => simp [hs]
  case inr.inl => simp
  case inr.inr => simp [hs, hfaulted, hseq]

/-- Settles O14: SEQ is read and its writes ignored at its own offset, and a CMD write's step is `cmdWrite`, whose outcomes
`cmdWrite_seq` counts. -/
theorem seqCountsCompletedCommands : Obligations.SeqCountsCompletedCommands := by
  have hseq (build : Build) : accessedReg build 0x0028 8 = some .seq :=
    accessedReg_control build (by simp [controlOffsets])
  refine ⟨fun _ => rfl, fun s rest hreq => step_read hreq (hseq s.build),
    fun s v rest hreq => step_write hreq (hseq s.build), fun s w rest hreq => ?_⟩
  obtain ⟨t, hstep⟩ := step_total s
  have hcmd := hstep
  rw [step_write hreq (accessedReg_cmd s.build)] at hcmd
  obtain ⟨hcounts, hkeeps⟩ := cmdWrite_seq hcmd
  refine ⟨t, hstep, fun hs ht => ?_, hkeeps⟩
  rw [hcounts hs ht, BitVec.toNat_add]
  rfl

end Sys2Proof.StateProofs
end

section
/-! PROOFS. The family of 20_memory.md: what a read of buffer data returns (R58), and reads and writes of a buffer's length (R60). -/

namespace Sys2Proof.MemoryProofs

open Sys2Proof.Machine Sys2Proof.Laws Sys2Proof.StateProofs

/-! ### The buffer registers of the MMIO map -/

theorem accessedReg_blen (build : Build) {off : Offset} {b : BReg} (h : off.toNat = 0x200 + 8 * b.val) :
    accessedReg build off 8 = some (.blen b) := by
  rw [accessedReg, if_pos rfl, mmioReg_blen off b h]

theorem accessedReg_bufData {build : Build} {off : Offset} {b : BReg} {j : Nat} (hj : j < build.maxb / 8)
    (h : off.toNat = 0x1000 + b.val * build.maxb + 8 * j) : accessedReg build off 8 = some (.bufData b j) := by
  rw [accessedReg, if_pos rfl, mmioReg_bufData off b j hj h]

/-! ### Little-endian packing (20_memory.md R58) -/

theorem bufByte_of_length_le {s : State} {b : BReg} {i : Nat} (h : (s.readBuf b).length ≤ i) : s.bufByte b i = 0 :=
  List.getD_eq_default _ _ h

/-- Byte k of the word is reached by dropping the k bytes below it. -/
theorem extractLsb'_bufWord (s : State) (b : BReg) (j : Nat) {k : Nat} (hk : k < 8) :
    (s.bufWord b j).extractLsb' (8 * k) 8 = s.bufByte b (8 * j + k) := by
  unfold State.bufWord
  interval_cases k <;>
    simp only [BitVec.extractLsb'_append_eq_of_le, BitVec.extractLsb'_append_eq_right, BitVec.extractLsb'_eq_self,
      Nat.reduceMul, Nat.reduceSub, Nat.reduceLeDiff, Nat.add_zero]

/-- Settles O24: the legal read answers `State.bufWord`, whose bytes `extractLsb'_bufWord` gives. -/
theorem bufferWordPacksLittleEndian : Obligations.BufferWordPacksLittleEndian := by
  intro s b j off rest hj hoff hreq
  refine ⟨s.bufWord b j, step_read hreq (accessedReg_bufData hj hoff), fun k hk => ?_⟩
  rw [extractLsb'_bufWord s b j hk]
  exact ⟨rfl, bufByte_of_length_le⟩

/-! ### Buffer lengths (20_memory.md R60) -/

theorem changesNoData_refl (s : State) : changesNoData s s := by
  simp [changesNoData, sameBuffer_iff, sameListing, sameControl]

/-- A buffer write is confined to its buffer, with no completion after it. -/
theorem writeBuf_changesOnlyBuf (s : State) (b : BReg) (bytes : List Byte) :
    changesOnlyBuf b s (s.writeBuf b bytes) :=
  changesOnlyBuf_writeBuf s b bytes false

theorem writeBlen_of_le {s : State} {v : Word} (b : BReg) (h : v.toNat ≤ s.build.maxb) :
    s.writeBlen b v =
      s.writeBuf b ((s.readBuf b).take v.toNat ++ List.replicate (v.toNat - (s.readBuf b).length) 0) :=
  if_pos h

theorem writeBlen_of_gt {s : State} {v : Word} (b : BReg) (h : ¬ v.toNat ≤ s.build.maxb) : s.writeBlen b v = s :=
  if_neg h

@[simp] theorem writeBlen_seq (s : State) (b : BReg) (v : Word) : (s.writeBlen b v).seq = s.seq := by
  unfold State.writeBlen; split <;> rfl

@[simp] theorem writeBlen_lmerr (s : State) (b : BReg) (v : Word) : (s.writeBlen b v).lmerr = s.lmerr := by
  unfold State.writeBlen; split <;> rfl

/-- A BLEN write neither reads nor changes the port. -/
theorem writeBlen_withPort (s : State) (b : BReg) (v : Word) (requests : List HostEvent) (responses : List HostResponse) :
    State.writeBlen { s with requests := requests, responses := responses } b v =
      { s.writeBlen b v with requests := requests, responses := responses } := by
  unfold State.writeBlen
  split <;> rfl

/-! A sequence resized to n bytes, as a BLEN write resizes it. -/

theorem length_take_append_replicate (bytes : List Byte) (n : Nat) :
    (bytes.take n ++ List.replicate (n - bytes.length) 0).length = n := by
  simp only [List.length_append, List.length_take, List.length_replicate]
  omega

/-- Below n the bytes are the old ones, and 0 where the sequence grew, which is what the old sequence reads there. -/
theorem getD_take_append_replicate (bytes : List Byte) (n i : Nat) :
    (bytes.take n ++ List.replicate (n - bytes.length) 0).getD i 0 = if i < n then bytes.getD i 0 else 0 := by
  have hlen : (bytes.take n).length = min n bytes.length := List.length_take
  by_cases hn : i < n
  case neg =>
    have hcut := length_take_append_replicate bytes n
    rw [if_neg hn, List.getD_eq_default _ _ (by omega)]
  case pos =>
    rw [if_pos hn]
    by_cases hold : i < bytes.length
    case pos =>
      rw [List.getD_append _ _ _ _ (by omega)]
      simp [hn]
    case neg =>
      rw [List.getD_append_right _ _ _ _ (by omega), List.getD_eq_default bytes _ (by omega)]
      simp

/-- A legal length is taken: nothing but the buffer changes, and it is cut or grown with zeros. -/
theorem writeBlen_resizes {s : State} {v : Word} (b : BReg) (h : v.toNat ≤ s.build.maxb) :
    changesOnlyBuf b s (s.writeBlen b v) ∧ ((s.writeBlen b v).readBuf b).length = v.toNat ∧
      ∀ i, (s.writeBlen b v).bufByte b i = if i < v.toNat then s.bufByte b i else 0 := by
  rw [writeBlen_of_le b h]
  refine ⟨writeBuf_changesOnlyBuf s b _, ?_, fun i => ?_⟩
  · rw [readBuf_writeBuf_self, length_take_append_replicate]
  · simp only [bufByte_eq, readBuf_writeBuf_self, getD_take_append_replicate]

/-- Settles O26: a BLEN read answers the length, and a BLEN write is `State.writeBlen`, which `writeBlen_resizes` and
`writeBlen_of_gt` describe on either side of MAXB. -/
theorem bufferLengthReadAndWrite : Obligations.BufferLengthReadAndWrite := by
  refine ⟨fun build b => by simp [State.readReg, zext64], fun s b off rest hoff hreq =>
    step_read hreq (accessedReg_blen s.build hoff), fun s b off v rest hoff hreq => ?_⟩
  refine ⟨s.writeBlen b v, ?_, writeBlen_seq s b v, writeBlen_lmerr s b v, ?_⟩
  · rw [step_write hreq (accessedReg_blen s.build hoff), writeReg, writeBlen_withPort]
  · split
    case isTrue h => exact writeBlen_resizes b h
    case isFalse h =>
      rw [writeBlen_of_gt b h]
      exact changesNoData_refl s

end Sys2Proof.MemoryProofs
end

section
/-! PROOFS. The family of 30_encoding.md: every written value is one row of the opcode table or illegal (R83), a faulted unit drops
commands (R92), and what every command completes with (R95). -/

namespace Sys2Proof.EncodingProofs

open Sys2Proof.Machine Sys2Proof.Laws Sys2Proof.StateProofs

/-! ### The opcode table (30_encoding.md R83, R84) -/

theorem mask_covers_opc : ∀ r ∈ opcodeTable, fieldOpc r.mask = 0xFF := by decide

theorem opcodes_differ : ∀ r ∈ opcodeTable, ∀ q ∈ opcodeTable, r ≠ q → fieldOpc r.code ≠ fieldOpc q.code := by decide

/-- A row's mask keeps all of OPC, so a word that matches the row has the row's opcode. -/
theorem fieldOpc_of_match {c : CmdWord} {r : Row} (hr : r ∈ opcodeTable) (h : c &&& r.mask = r.code) :
    fieldOpc c = fieldOpc r.code := by
  calc fieldOpc c = fieldOpc c &&& 0xFF := (BitVec.and_allOnes (x := fieldOpc c)).symm
    _ = fieldOpc c &&& fieldOpc r.mask := by rw [mask_covers_opc r hr]
    _ = fieldOpc (c &&& r.mask) := BitVec.extractLsb'_and.symm
    _ = fieldOpc r.code := by rw [h]

/-- No two rows overlap (30_encoding.md R83): the opcode of a word tells its row. -/
theorem row_unique {c : CmdWord} {r q : Row} (hr : r ∈ opcodeTable) (hq : q ∈ opcodeTable)
    (hcr : c &&& r.mask = r.code) (hcq : c &&& q.mask = q.code) : r = q := by
  by_contra hne
  apply opcodes_differ r hr q hq hne
  rw [← fieldOpc_of_match hr hcr, fieldOpc_of_match hq hcq]

/-! ### Decoding (30_encoding.md R93) -/

theorem selectRow_eq_none_iff (c : CmdWord) : selectRow c = none ↔ ∀ r ∈ opcodeTable, c &&& r.mask ≠ r.code := by
  simp [selectRow]

/-- The search finds the matching row wherever it stands, because there is only one. -/
theorem selectRow_of_match {c : CmdWord} {r : Row} (hr : r ∈ opcodeTable) (h : c &&& r.mask = r.code) :
    selectRow c = some r := by
  cases hsel : selectRow c with
  | none => exact absurd h ((selectRow_eq_none_iff c).mp hsel r hr)
  | some q =>
    obtain ⟨hq, hcq⟩ := selectRow_some hsel
    rw [row_unique hq hr hcq h]

theorem decode_of_match {w : Word} {r : Row} (hhigh : w.extractLsb' 32 32 = 0) (hr : r ∈ opcodeTable)
    (h : w.extractLsb' 0 32 &&& r.mask = r.code) : decode w = .ok (r.mnemonic.instr (w.extractLsb' 0 32)) := by
  simp only [decode, hhigh, selectRow_of_match hr h, ne_eq, not_true_eq_false, if_false]

/-- A value that decodes to a command has a zero high half and a matching row, so one that lacks either is illegal. -/
theorem decode_error_of_no_match {w : Word}
    (h : w.extractLsb' 32 32 ≠ 0 ∨ ∀ r ∈ opcodeTable, w.extractLsb' 0 32 &&& r.mask ≠ r.code) :
    ∃ e, decode w = .error e := by
  cases hdec : decode w with
  | error e => exact ⟨e, rfl⟩
  | ok i =>
    obtain ⟨hhigh, r, hr, hmatch, -⟩ := decode_ok hdec
    rcases h with hne | hnone
    · exact absurd hhigh hne
    · exact absurd hmatch (hnone r hr)

/-- Settles O3: the opcodes alone keep the rows apart, and a value has a zero high half and a matching row, or lacks one of them. -/
theorem decodingIsTotalAndUnambiguous : Obligations.DecodingIsTotalAndUnambiguous := by
  refine ⟨fun r hr => ⟨mask_covers_opc r hr, opcodes_differ r hr⟩, fun c r q => row_unique, fun w => ?_⟩
  by_cases hlegal : w.extractLsb' 32 32 = 0 ∧ ∃ r ∈ opcodeTable, w.extractLsb' 0 32 &&& r.mask = r.code
  case pos =>
    obtain ⟨hhigh, r, hr, hmatch⟩ := hlegal
    exact .inl ⟨hhigh, r, hr, hmatch, decode_of_match hhigh hr hmatch⟩
  case neg =>
    have hillegal : w.extractLsb' 32 32 ≠ 0 ∨ ∀ r ∈ opcodeTable, w.extractLsb' 0 32 &&& r.mask ≠ r.code := by
      rw [not_and_or] at hlegal
      exact hlegal.imp id fun hno r hr hmatch => hno ⟨r, hr, hmatch⟩
    exact .inr ⟨hillegal, decode_error_of_no_match hillegal⟩

/-! ### The command step (30_encoding.md R92, R95) -/

theorem cmdWrite_of_faulted {s : State} (h : s.faulted = true) (w : Word) : cmdWrite w s = .next s := if_pos h

/-- Settles O9: every command ends as `exec_next` says, and the fault it may enter is precise. -/
theorem completionWritesFlagAndCounter : Obligations.CompletionWritesFlagAndCounter := by
  intro i s
  rcases exec_next i s with ⟨c, hcause, hexec⟩ | ⟨t, hexec, hcompletes, hcontrol, -⟩
  case inl => exact .inl ⟨_, c, _, hexec, hcause, faultsWith_enterFault s c (cmdValue i)⟩
  case inr => exact .inr ⟨t, hexec, hcompletes, hcontrol⟩

/-- Settles O7: the step of a CMD write is `cmdWrite` with the port's answer given, and a faulted unit drops the value. -/
theorem faultedUnitDropsCommands : Obligations.FaultedUnitDropsCommands := by
  intro s w rest hreq hfaulted
  rw [step_write hreq (accessedReg_cmd s.build), writeReg]
  apply cmdWrite_of_faulted
  exact hfaulted

end Sys2Proof.EncodingProofs
end

section
/-! PROOFS. The family of 40_bitlist.md: a malformed operand (R101), and what the bitlist commands write and ignore (R109). -/

namespace Sys2Proof.BitlistProofs

open Sys2Proof.Machine Sys2Proof.Laws

/-! ### A malformed operand (40_bitlist.md R101) -/

/-- BL.NEW reads no bitlist: it completes and keeps the recorded cause, or records CAPACITY. -/
theorem exec_blNew_fcause {s t : State} {d : BReg} {a : XReg} (h : exec (.blNew d a) s = .next t) :
    t.fcause = s.fcause ∨ t.fcause = .capacity := by
  rcases Nat.lt_or_ge (8 * s.build.maxb - 1) (s.readX a).toNat with hgt | hle
  case inl =>
    rw [exec_blNew_of_gt s d a hgt] at h
    cases h
    exact .inr rfl
  case inr =>
    rw [exec_blNew_of_le s d a hle] at h
    cases h
    exact .inl rfl

/-- Settles O33: a malformed operand leads straight to fault entry, which writes the fault record only. -/
theorem malformedBitlistFaults : Obligations.MalformedBitlistFaults := by
  refine ⟨fun s i b hmalformed hi => ?_, fun s t d a hexec hs => ?_⟩
  · exact ⟨_, cmdValue i, exec_of_malformed s b hmalformed i hi, faultsWith_enterFault s _ _⟩
  · rcases exec_blNew_fcause hexec with hkept | hcapacity
    · rwa [hkept]
    · simp [hcapacity]

/-! ### What the bitlist commands write and what they ignore (40_bitlist.md R109) -/

/-- The buffer a command reads as a bitlist before anything else (40_bitlist.md R101). -/
def bitlistOperand : Instr → Option BReg
  | .blLen _ a => some a
  | .blBitat _ a _ => some a
  | .blSetbit d _ _ => some d
  | .blCount _ a => some a
  | .blBytes _ a => some a
  | _ => none

theorem exec_of_malformed_operand (s : State) {i : Instr} {b : BReg} (hi : bitlistOperand i = some b)
    (h : malformed (s.readBuf b)) : exec i s = .next (s.enterFault .malformedBitlist (cmdValue i)) := by
  apply exec_of_malformed s b h
  cases i <;> simp_all [bitlistOperand]

/-! BL.SETBIT on either side of the length (40_bitlist.md R104). -/

theorem exec_blSetbit_of_lt {s : State} (d : BReg) (a : XReg) (v : Bool) (hwf : blWf (s.readBuf d) = true)
    (h : (s.readX a).toNat < blLen (s.readBuf d)) :
    exec (.blSetbit d a v) s = .next ((s.writeBuf d (setBit (s.readBuf d) (s.readX a).toNat v)).complete false) := by
  rw [exec_blSetbit s d a v hwf, if_pos h]

theorem exec_blSetbit_of_ge {s : State} (d : BReg) (a : XReg) (v : Bool) (hwf : blWf (s.readBuf d) = true)
    (h : blLen (s.readBuf d) ≤ (s.readX a).toNat) : exec (.blSetbit d a v) s = .next (s.complete false) := by
  rw [exec_blSetbit s d a v hwf, if_neg (Nat.not_lt.mpr h)]

/-- A state with other values in CFG, the index memory and IDXCNT. -/
def withWidthAndListing (s : State) (vn : BitVec 32) (idx : List Word) (idxCnt : Word) : State :=
  { s with vn := vn, idx := idx, idxCnt := idxCnt }

/-- What a bitlist command can do to a state: enter a fault, or complete with nothing, one scalar or one buffer written. -/
inductive BitlistEffect where
  | fault (cause : FaultCause) (w : Word)
  | nothing
  | scalar (d : XReg) (v : Word)
  | buffer (d : BReg) (bytes : List Byte)

/-- The state after the effect. -/
def BitlistEffect.apply : BitlistEffect → State → State
  | .fault cause w, s => s.enterFault cause w
  | .nothing, s => s.complete false
  | .scalar d v, s => (s.writeX d v).complete false
  | .buffer d bytes, s => (s.writeBuf d bytes).complete false

theorem BitlistEffect.apply_withWidthAndListing (e : BitlistEffect) (s : State) (vn : BitVec 32) (idx : List Word)
    (idxCnt : Word) :
    e.apply (withWidthAndListing s vn idx idxCnt) = withWidthAndListing (e.apply s) vn idx idxCnt := by
  cases e <;> rfl

/-- The command has this one effect in the state, whatever CFG, the index memory and IDXCNT hold. -/
def hasEffect (i : Instr) (s : State) (e : BitlistEffect) : Prop :=
  ∀ vn idx idxCnt, exec i (withWidthAndListing s vn idx idxCnt) = .next (e.apply (withWidthAndListing s vn idx idxCnt))

theorem exec_of_hasEffect {i : Instr} {s : State} {e : BitlistEffect} (h : hasEffect i s e) :
    exec i s = .next (e.apply s) :=
  h s.vn s.idx s.idxCnt

/-- A command confined to the frame of its destination: it faults, or completes and keeps the frame. -/
def confinedTo (frame : State → State → Prop) (s t : State) : Prop :=
  (∃ c w, faultsWith c w s t) ∨ (completes false s t ∧ frame s t)

theorem confinedTo_fault (frame : State → State → Prop) (s : State) (cause : FaultCause) (w : Word) :
    confinedTo frame s ((BitlistEffect.fault cause w).apply s) :=
  .inl ⟨cause, w, faultsWith_enterFault s cause w⟩

theorem confinedTo_scalar (s : State) (d : XReg) (v : Word) :
    confinedTo (changesOnlyX d) s ((BitlistEffect.scalar d v).apply s) :=
  .inr ⟨completes_complete s _ false rfl, changesOnlyX_writeX s d v false⟩

theorem confinedTo_buffer (s : State) (d : BReg) (bytes : List Byte) :
    confinedTo (changesOnlyBuf d) s ((BitlistEffect.buffer d bytes).apply s) :=
  .inr ⟨completes_complete s _ false rfl, changesOnlyBuf_writeBuf s d bytes false⟩

theorem confinedTo_nothing (s : State) (d : BReg) :
    confinedTo (changesOnlyBuf d) s (BitlistEffect.nothing.apply s) :=
  .inr ⟨completes_complete s _ false rfl, changesOnlyBuf_of_changesNoData d (changesNoData_complete s false)⟩

/-- The command has one effect in every state, within the frame, that CFG, the index memory and IDXCNT do not decide. -/
def actsWithin (frame : State → State → Prop) (i : Instr) : Prop :=
  ∀ s, ∃ e, hasEffect i s e ∧ confinedTo frame s (e.apply s)

/-- A command that reads a bitlist faults on a malformed one, so only its effect on a well-formed one is in question. -/
theorem actsWithin_of_wf {frame : State → State → Prop} {i : Instr} {b : BReg} (hi : bitlistOperand i = some b)
    (h : ∀ s, blWf (s.readBuf b) = true → ∃ e, hasEffect i s e ∧ confinedTo frame s (e.apply s)) :
    actsWithin frame i := by
  intro s
  by_cases hmalformed : malformed (s.readBuf b)
  · exact ⟨.fault _ _, fun _ _ _ => exec_of_malformed_operand _ hi hmalformed, confinedTo_fault frame s _ _⟩
  · exact h s ((blWf_iff_not_malformed _).mpr hmalformed)

theorem blNew_confined (d : BReg) (a : XReg) : actsWithin (changesOnlyBuf d) (.blNew d a) := by
  intro s
  rcases Nat.lt_or_ge (8 * s.build.maxb - 1) (s.readX a).toNat with hgt | hle
  · exact ⟨.fault _ _, fun _ _ _ => exec_blNew_of_gt _ d a hgt, confinedTo_fault _ s _ _⟩
  · exact ⟨.buffer d (newBitlist (s.readX a).toNat), fun _ _ _ => exec_blNew_of_le _ d a hle, confinedTo_buffer s d _⟩

theorem blLen_confined (d : XReg) (a : BReg) : actsWithin (changesOnlyX d) (.blLen d a) :=
  actsWithin_of_wf rfl fun s hwf =>
    ⟨.scalar d (zext64 (blLen (s.readBuf a))), fun _ _ _ => exec_blLen _ d a hwf, confinedTo_scalar s d _⟩

theorem blBitat_confined (d : XReg) (a : BReg) (b : XReg) : actsWithin (changesOnlyX d) (.blBitat d a b) :=
  actsWithin_of_wf rfl fun s hwf =>
    ⟨.scalar d (if (s.readX b).toNat < blLen (s.readBuf a) then boolWord (getBit (s.readBuf a) (s.readX b).toNat) else 0),
      fun _ _ _ => exec_blBitat _ d a b hwf, confinedTo_scalar s d _⟩

theorem blSetbit_confined (d : BReg) (a : XReg) (v : Bool) : actsWithin (changesOnlyBuf d) (.blSetbit d a v) := by
  refine actsWithin_of_wf rfl fun s hwf => ?_
  rcases Nat.lt_or_ge (s.readX a).toNat (blLen (s.readBuf d)) with hlt | hge
  · exact ⟨.buffer d (setBit (s.readBuf d) (s.readX a).toNat v), fun _ _ _ => exec_blSetbit_of_lt d a v hwf hlt,
      confinedTo_buffer s d _⟩
  · exact ⟨.nothing, fun _ _ _ => exec_blSetbit_of_ge d a v hwf hge, confinedTo_nothing s d⟩

theorem blCount_confined (d : XReg) (a : BReg) : actsWithin (changesOnlyX d) (.blCount d a) :=
  actsWithin_of_wf rfl fun s hwf =>
    ⟨.scalar d (if popcount (s.readBuf a) ≠ 0 then zext64 (popcount (s.readBuf a) - 1) else 0),
      fun _ _ _ => exec_blCount _ d a hwf, confinedTo_scalar s d _⟩

theorem blBytes_confined (d a : BReg) : actsWithin (changesOnlyBuf d) (.blBytes d a) :=
  actsWithin_of_wf rfl fun s hwf =>
    ⟨.buffer d (trimZeros (clearSentinel (s.readBuf a))), fun _ _ _ => exec_blBytes _ d a hwf, confinedTo_buffer s d _⟩

/-- The two halves of R109, for a command whose answer in the state is known. -/
theorem confined_and_independent_of_actsWithin {frame : State → State → Prop} {i : Instr} {s t : State}
    (h : actsWithin frame i) (hexec : exec i s = .next t) (vn : BitVec 32) (idx : List Word) (idxCnt : Word) :
    confinedTo frame s t ∧
      exec i (withWidthAndListing s vn idx idxCnt) = .next (withWidthAndListing t vn idx idxCnt) := by
  obtain ⟨e, heffect, hconfined⟩ := h s
  obtain rfl : e.apply s = t := by simpa [exec_of_hasEffect heffect] using hexec
  exact ⟨hconfined, by rw [heffect, e.apply_withWidthAndListing]⟩

/-- Settles O41: every bitlist command has one effect, confined to its destination, that its operands alone decide. -/
theorem bitlistCommandsIgnoreWidthAndListing : Obligations.BitlistCommandsIgnoreWidthAndListing := by
  intro s t i vn idx idxCnt hi hexec
  cases i with
  | blNew d a => exact confined_and_independent_of_actsWithin (blNew_confined d a) hexec vn idx idxCnt
  | blLen d a => exact confined_and_independent_of_actsWithin (blLen_confined d a) hexec vn idx idxCnt
  | blBitat d a b => exact confined_and_independent_of_actsWithin (blBitat_confined d a b) hexec vn idx idxCnt
  | blSetbit d a v => exact confined_and_independent_of_actsWithin (blSetbit_confined d a v) hexec vn idx idxCnt
  | blCount d a => exact confined_and_independent_of_actsWithin (blCount_confined d a) hexec vn idx idxCnt
  | blBytes d a => exact confined_and_independent_of_actsWithin (blBytes_confined d a) hexec vn idx idxCnt
  | _ => exact False.elim hi

end Sys2Proof.BitlistProofs
end

section
/-! PROOFS. The laws of the containers: R108 for the bitlist commands (40_bitlist.md) and R129 for the bitvector access commands
(41_bitvector.md). -/

namespace Sys2Proof.ContainerProofs

open Sys2Proof.Machine Sys2Proof.Laws Sys2Proof.BitlistProofs

/-! ### Numbers in result words -/

theorem toNat_zext64 {n : Nat} (h : n < 2 ^ 64) : (zext64 n).toNat = n := by
  rw [zext64, BitVec.toNat_ofNat, Nat.mod_eq_of_lt h]

theorem zext64_toNat (v : Word) : zext64 v.toNat = v := by
  simp [zext64]

theorem boolWord_eq (b : Bool) : boolWord b = if b then 1 else 0 := by
  cases b <;> rfl

theorem boolWord_eq_one_iff (b : Bool) : boolWord b = 1 ↔ b = true := by
  cases b <;> decide

/-! ### The sentinel under the bit operations (40_bitlist.md R100, R102, R106) -/

theorem div_lt_length {bytes : List Byte} {n p : Nat} (h : bitlistLength bytes n) (hp : p < n) : p / 8 < bytes.length := by
  rcases h with ⟨-, rfl⟩ | ⟨hlen, -, -⟩ <;> omega

/-- A bit write below the length writes that bit, whatever the byte. -/
theorem getBit_setBit_of_lt {bytes : List Byte} {n p : Nat} (h : bitlistLength bytes n) (hp : p < n) (v : Bool) (q : Nat) :
    getBit (setBit bytes p v) q = if q = p then v else getBit bytes q := by
  simp [getBit_setBit, div_lt_length h hp]

/-- A bit write below the length keeps the sentinel. -/
theorem bitlistLength_setBit {bytes : List Byte} {n p : Nat} (h : bitlistLength bytes n) (hp : p < n) (v : Bool) :
    bitlistLength (setBit bytes p v) n := by
  rcases h with ⟨-, rfl⟩ | ⟨hlen, hset, hclear⟩
  · omega
  · have hq {q : Nat} (hq : n ≤ q) : getBit (setBit bytes p v) q = getBit bytes q := by
      rw [getBit_setBit, if_neg (by omega)]
    exact .inr ⟨by rw [length_setBit, hlen], (hq le_rfl).trans hset, fun q hlt => (hq hlt.le).trans (hclear q hlt)⟩

theorem getLsbD_one_shiftLeft {i j : Nat} (hj : j < 8) : (1#8 <<< i).getLsbD j = decide (j = i) := by
  rw [BitVec.getLsbD_shiftLeft, BitVec.getLsbD_one]
  by_cases h : j = i <;> simp [h, hj] <;> omega

/-- The new bitlist of length n holds one bit, at n. -/
theorem getBit_newBitlist (n p : Nat) : getBit (newBitlist n) p = decide (p = n) := by
  have hlen : (List.replicate (n / 8) (0 : Byte)).length = n / 8 := List.length_replicate
  rcases Nat.lt_trichotomy (p / 8) (n / 8) with hbefore | hlast | hpast
  · have hzero : ((List.replicate (n / 8) (0 : Byte)).getD (p / 8) 0).getLsbD (p % 8) = false :=
      getBit_replicate_zero (n / 8) p
    rw [getBit, newBitlist, List.getD_append _ _ _ _ (by omega), hzero, decide_eq_false (by omega)]
  · rw [getBit, newBitlist, List.getD_append_right _ _ _ _ (by omega), hlen, hlast, Nat.sub_self, List.getD_cons_zero,
      getLsbD_one_shiftLeft (Nat.mod_lt _ (by omega)), decide_eq_decide]
    omega
  · have hlength : (newBitlist n).length = n / 8 + 1 := by simp [newBitlist]
    rw [getBit_eq_false_of_length_le (by omega), decide_eq_false (by omega)]

theorem bitlistLength_newBitlist (n : Nat) : bitlistLength (newBitlist n) n := by
  refine .inr ⟨by simp [newBitlist], ?_, fun p hp => ?_⟩
  · simp [getBit_newBitlist]
  · rw [getBit_newBitlist, decide_eq_false (by omega)]

/-- Clearing the sentinel is a bit write at the length. -/
theorem clearSentinel_eq_setBit {bytes : List Byte} {n : Nat} (h : bitlistLength bytes n) :
    clearSentinel bytes = setBit bytes n false := by
  rw [← blLen_of_bitlistLength h]
  have hwf := blWf_of_bitlistLength h
  rcases List.eq_nil_or_concat bytes with rfl | ⟨l, b, rfl⟩
  · rfl
  · rw [List.concat_eq_append] at hwf ⊢
    obtain ⟨hpos, hle, -, -⟩ := bitLen8_spec b (by simpa [blWf] using hwf)
    have hlen : blLen (l ++ [b]) = 8 * l.length + (bitLen8 b - 1) := by
      simp [blLen]; omega
    have hdiv : blLen (l ++ [b]) / 8 = l.length := by omega
    have hmod : blLen (l ++ [b]) % 8 = bitLen8 b - 1 := by omega
    simp [clearSentinel, setBit, setByteBit, hdiv, hmod]

theorem eq_replicate_zero_of_getBit {bytes : List Byte} (h : ∀ p, getBit bytes p = false) :
    bytes = List.replicate bytes.length 0 :=
  bytes_eq_of_getBit (by simp) fun p => by rw [h, getBit_replicate_zero]

theorem trimZeros_replicate_zero (k : Nat) : trimZeros (List.replicate k 0) = [] := by
  simp [trimZeros]

/-- A bitlist with no data bit is written out by BL.BYTES as no byte at all. -/
theorem trimZeros_clearSentinel_eq_nil {bytes : List Byte} {n : Nat} (h : bitlistLength bytes n)
    (hzero : ∀ p, p < n → getBit bytes p = false) : trimZeros (clearSentinel bytes) = [] := by
  have hclear (p : Nat) : getBit (clearSentinel bytes) p = false := by
    rw [clearSentinel_eq_setBit h, getBit_setBit]
    split
    · rfl
    next hne =>
      rcases Nat.lt_trichotomy p n with hlt | rfl | hgt
      · exact hzero p hlt
      · exact getBit_eq_false_of_length_le (by omega)
      · exact getBit_of_length_lt h hgt
  rw [eq_replicate_zero_of_getBit hclear, trimZeros_replicate_zero]

/-! ### Counting (40_bitlist.md R107) -/

theorem bitsBelow_eq_length_filter (bytes : List Byte) (n : Nat) :
    bitsBelow bytes n = ((List.range n).filter (getBit bytes)).length :=
  List.countP_eq_length_filter

/-- A bitlist that is not empty has its sentinel and its data bits set. -/
theorem popcount_of_bitlistLength {bytes : List Byte} {n : Nat} (h : bitlistLength bytes n) (hne : bytes ≠ []) :
    popcount bytes = bitsBelow bytes n + 1 := by
  rcases h with ⟨hnil, -⟩ | ⟨hlen, hset, hclear⟩
  · exact absurd hnil hne
  · obtain ⟨r, hr⟩ : ∃ r, 8 * bytes.length = n + (1 + r) := ⟨8 * bytes.length - n - 1, by omega⟩
    have hrest : (List.range r).countP (fun j => getBit bytes (n + (1 + j))) = 0 :=
      List.countP_eq_zero.mpr fun j _ => by simp [hclear (n + (1 + j)) (by omega)]
    rw [popcount_eq_bitsBelow, hr]
    simp only [bitsBelow, countP_range_add, hrest]
    simp [hset]

/-- What BL.COUNT writes is the number of data bits. -/
theorem countWord_of_bitlistLength {bytes : List Byte} {n : Nat} (h : bitlistLength bytes n) :
    (if popcount bytes ≠ 0 then zext64 (popcount bytes - 1) else 0) = zext64 (bitsBelow bytes n) := by
  by_cases hnil : bytes = []
  · subst hnil
    rcases h with ⟨-, rfl⟩ | ⟨hlen, -, -⟩
    · rfl
    · simp at hlen
  · simp [popcount_of_bitlistLength h hnil]

/-! ### Bounds under the canonical form of the memories -/

theorem length_readBuf_le {s : State} (h : Memory.wf s = true) (b : BReg) : (s.readBuf b).length ≤ 1024 := by
  obtain ⟨hbuf, -, -⟩ := (Memory_wf_iff s).mp h
  obtain ⟨-, -, hmaxb⟩ := maxb_bounds s.build
  exact (hbuf b).trans hmaxb

theorem bitlistLength_lt {s : State} (h : Memory.wf s = true) {b : BReg} {n : Nat} (hn : bitlistLength (s.readBuf b) n) :
    n < 2 ^ 64 := by
  have := length_readBuf_le h b
  rcases hn with ⟨-, rfl⟩ | ⟨hlen, -, -⟩ <;> omega

/-! ### The bitlist commands on a bitlist of known length -/

/-- BL.BITAT answers the data bit below the length and 0 from it on (40_bitlist.md R103). -/
theorem exec_blBitat_of_length {s : State} {a : BReg} {n : Nat} (h : bitlistLength (s.readBuf a) n) (d b : XReg) :
    exec (.blBitat d a b) s =
      .next ((s.writeX d (boolWord (decide ((s.readX b).toNat < n) && getBit (s.readBuf a) (s.readX b).toNat))).complete
        false) := by
  rw [exec_blBitat s d a b (blWf_of_bitlistLength h), blLen_of_bitlistLength h]
  by_cases hlt : (s.readX b).toNat < n
  · simp [hlt]
  · simp [hlt, boolWord_eq]

theorem exec_blLen_of_length {s : State} {a : BReg} {n : Nat} (h : bitlistLength (s.readBuf a) n) (d : XReg) :
    exec (.blLen d a) s = .next ((s.writeX d (zext64 n)).complete false) := by
  rw [exec_blLen s d a (blWf_of_bitlistLength h), blLen_of_bitlistLength h]

theorem exec_blCount_of_length {s : State} {a : BReg} {n : Nat} (h : bitlistLength (s.readBuf a) n) (d : XReg) :
    exec (.blCount d a) s = .next ((s.writeX d (zext64 (bitsBelow (s.readBuf a) n))).complete false) := by
  rw [exec_blCount s d a (blWf_of_bitlistLength h), countWord_of_bitlistLength h]

theorem exec_blSetbit_of_lt_length {s : State} {d : BReg} {n : Nat} (h : bitlistLength (s.readBuf d) n) {a : XReg}
    (hlt : (s.readX a).toNat < n) (v : Bool) :
    exec (.blSetbit d a v) s = .next ((s.writeBuf d (setBit (s.readBuf d) (s.readX a).toNat v)).complete false) :=
  exec_blSetbit_of_lt d a v (blWf_of_bitlistLength h) (by rwa [blLen_of_bitlistLength h])

theorem exec_blSetbit_of_length_le {s : State} {d : BReg} {n : Nat} (h : bitlistLength (s.readBuf d) n) {a : XReg}
    (hge : n ≤ (s.readX a).toNat) (v : Bool) : exec (.blSetbit d a v) s = .next (s.complete false) :=
  exec_blSetbit_of_ge d a v (blWf_of_bitlistLength h) (by rwa [blLen_of_bitlistLength h])

/-- Below the length, BL.BITAT returns 1 exactly for the set bits. -/
theorem bitlistReadsOne_iff {s : State} {b : BReg} {n p : Nat} (h : bitlistLength (s.readBuf b) n) (hp : p < n)
    (hn : n < 2 ^ 64) : bitlistReadsOne s b p ↔ getBit (s.readBuf b) p = true := by
  have hexec (e a : XReg) : exec (.blBitat e b a) (s.writeX a (zext64 p)) =
      .next (((s.writeX a (zext64 p)).writeX e (boolWord (getBit (s.readBuf b) p))).complete false) := by
    rw [exec_blBitat_of_length (s := s.writeX a (zext64 p)) h]
    simp [toNat_zext64 (hp.trans hn), hp]
  simp only [bitlistReadsOne, hexec, Host.Outcome.next.injEq, exists_eq_left', complete_readX, readX_writeX_self,
    boolWord_eq_one_iff, forall_const]

/-! ### The laws of the bitlist commands (40_bitlist.md R108) -/

theorem law_newThenLength {s : State} (d : BReg) (a e : XReg) (h : (s.readX a).toNat ≤ 8 * s.build.maxb - 1) :
    ∃ t u, exec (.blNew d a) s = .next t ∧ exec (.blLen e d) t = .next u ∧ u.readX e = s.readX a := by
  refine ⟨_, _, exec_blNew_of_le s d a h, exec_blLen_of_length (n := (s.readX a).toNat) ?_ e, ?_⟩
  · simpa using bitlistLength_newBitlist (s.readX a).toNat
  · simp [zext64_toNat]

theorem law_bitlistReadAfterWrite {s : State} (d : BReg) (a e : XReg) (v : Bool) (n : Nat)
    (hn : bitlistLength (s.readBuf d) n) (hlt : (s.readX a).toNat < n) :
    ∃ t u, exec (.blSetbit d a v) s = .next t ∧ exec (.blBitat e d a) t = .next u ∧
      u.readX e = (if v then 1 else 0) ∧
      ∀ p, p ≠ (s.readX a).toNat → getBit (t.readBuf d) p = getBit (s.readBuf d) p := by
  refine ⟨_, _, exec_blSetbit_of_lt_length hn hlt v, exec_blBitat_of_length (n := n) ?_ e a, ?_, fun p hp => ?_⟩
  · simpa using bitlistLength_setBit hn hlt v
  · simp [getBit_setBit_of_lt hn hlt, hlt, boolWord_eq]
  · simp [getBit_setBit_of_lt hn hlt, hp]

theorem law_pastTheLength {s : State} (d : BReg) (a e : XReg) (n : Nat) (hn : bitlistLength (s.readBuf d) n)
    (hge : n ≤ (s.readX a).toNat) :
    ∃ t u, exec (.blBitat e d a) s = .next t ∧ t.readX e = 0 ∧
      exec (.blSetbit d a true) s = .next u ∧ u.readBuf d = s.readBuf d := by
  refine ⟨_, _, exec_blBitat_of_length hn e a, ?_, exec_blSetbit_of_length_le hn hge true, rfl⟩
  simp [Nat.not_lt.mpr hge, boolWord_eq]

/-- The positions of law 4 are the set bits below the length. -/
theorem law_countOfReads {s : State} (hwf : Memory.wf s = true) (d : XReg) (a : BReg) (n : Nat)
    (hn : bitlistLength (s.readBuf a) n) :
    ∃ t, exec (.blCount d a) s = .next t ∧
      ∃ P : List Nat, P.Pairwise (· < ·) ∧ (∀ p, p ∈ P ↔ p < n ∧ bitlistReadsOne s a p) ∧
        (t.readX d).toNat = P.length := by
  have hlt := bitlistLength_lt hwf hn
  refine ⟨_, exec_blCount_of_length hn d, (List.range n).filter (getBit (s.readBuf a)),
    List.pairwise_lt_range.filter _, fun p => ?_, ?_⟩
  · rw [List.mem_filter, List.mem_range]
    exact and_congr_right fun hp => (bitlistReadsOne_iff hn hp hlt).symm
  · rw [complete_readX, readX_writeX_self, toNat_zext64 ((bitsBelow_le _ n).trans_lt hlt), bitsBelow_eq_length_filter]

theorem law_sentinelOnlyExport {s : State} (d a : BReg) (n : Nat) (hn : bitlistLength (s.readBuf a) n)
    (hzero : ∀ p, p < n → getBit (s.readBuf a) p = false) :
    ∃ t, exec (.blBytes d a) s = .next t ∧ t.readBuf d = [] := by
  refine ⟨_, exec_blBytes s d a (blWf_of_bitlistLength hn), ?_⟩
  simpa using trimZeros_clearSentinel_eq_nil hn hzero

theorem law_lengthIsHighestBit {s : State} (hwf : Memory.wf s = true) (d : XReg) (a : BReg)
    (hmalformed : ¬ malformed (s.readBuf a)) (hne : s.readBuf a ≠ []) :
    ∃ t, exec (.blLen d a) s = .next t ∧ getBit (s.readBuf a) (t.readX d).toNat = true ∧
      ∀ p, (t.readX d).toNat < p → getBit (s.readBuf a) p = false := by
  have hn := bitlistLength_blLen ((blWf_iff_not_malformed _).mpr hmalformed)
  refine ⟨_, exec_blLen_of_length hn d, ?_⟩
  rw [complete_readX, readX_writeX_self, toNat_zext64 (bitlistLength_lt hwf hn)]
  rcases hn with ⟨hnil, -⟩ | ⟨-, hset, hclear⟩
  · exact absurd hnil hne
  · exact ⟨hset, hclear⟩

theorem law_sentinelFromLength {bytes other : List Byte} {n : Nat} (hbytes : bytes ≠ []) (hother : other ≠ [])
    (hn : bitlistLength bytes n) (hm : bitlistLength other n) :
    bytes.length = other.length ∧ ∀ p, n ≤ p → getBit bytes p = getBit other p := by
  rcases hn with ⟨hnil, -⟩ | ⟨hlen, hset, hclear⟩
  · exact absurd hnil hbytes
  rcases hm with ⟨hnil, -⟩ | ⟨hlen', hset', hclear'⟩
  · exact absurd hnil hother
  refine ⟨by omega, fun p hp => ?_⟩
  rcases Nat.eq_or_lt_of_le hp with rfl | hlt
  · rw [hset, hset']
  · rw [hclear p hlt, hclear' p hlt]

/-- Law 6 of one buffer between two states: its length in bytes and its sentinel stay. -/
def sentinelStays (s t : State) (b : BReg) : Prop :=
  (t.readBuf b).length = (s.readBuf b).length ∧ ∀ n, bitlistLength (s.readBuf b) n → bitlistLength (t.readBuf b) n

theorem sentinelStays_of_eq {s t : State} {b : BReg} (h : t.readBuf b = s.readBuf b) : sentinelStays s t b := by
  simp [sentinelStays, h]

/-- A command that faults, or writes no buffer, keeps every sentinel. -/
theorem sentinelStays_of_confinedTo {s t : State} {d : XReg} (h : confinedTo (changesOnlyX d) s t) (b : BReg) :
    sentinelStays s t b := by
  apply sentinelStays_of_eq
  rw [← sameBuffer_iff]
  rcases h with ⟨c, w, -, -, -, -, -, -, hbuf, -⟩ | ⟨-, -, hbuf, -⟩
  · exact hbuf b
  · exact hbuf b

/-- BL.SETBIT keeps the sentinel, because it writes below it or not at all. -/
theorem blSetbit_keeps_sentinel {s t : State} {d : BReg} {a : XReg} {v : Bool} (h : exec (.blSetbit d a v) s = .next t)
    (b : BReg) : sentinelStays s t b := by
  by_cases hmalformed : malformed (s.readBuf d)
  case pos =>
    rw [exec_of_malformed_operand s rfl hmalformed] at h
    cases h
    exact sentinelStays_of_eq rfl
  have hn := bitlistLength_blLen ((blWf_iff_not_malformed _).mpr hmalformed)
  rcases Nat.lt_or_ge (s.readX a).toNat (blLen (s.readBuf d)) with hlt | hge
  case inr =>
    rw [exec_blSetbit_of_length_le hn hge v] at h
    cases h
    exact sentinelStays_of_eq rfl
  rw [exec_blSetbit_of_lt_length hn hlt v] at h
  cases h
  by_cases hb : b = d
  · subst hb
    refine ⟨by simp, fun n hn' => ?_⟩
    rw [bitlistLength_unique hn' hn]
    simpa using bitlistLength_setBit hn hlt v
  · exact sentinelStays_of_eq (by simp [hb])

theorem bitlistLaws {s : State} (hwf : Memory.wf s = true) : BitlistLaws s where
  newThenLength := law_newThenLength
  readAfterWrite := law_bitlistReadAfterWrite
  pastTheLength := law_pastTheLength
  countOfReads := law_countOfReads hwf
  sentinelOnlyExport := law_sentinelOnlyExport
  lengthIsHighestBit := law_lengthIsHighestBit hwf
  sentinelFromLength := fun _ _ _ => law_sentinelFromLength
  sentinelKept := by
    intro i t hi h
    have keeps {d : XReg} (hd : actsWithin (changesOnlyX d) i) : ∀ b, sentinelStays s t b :=
      sentinelStays_of_confinedTo (confined_and_independent_of_actsWithin hd h s.vn s.idx s.idxCnt).1
    cases i with
    | blLen d a => exact keeps (blLen_confined d a)
    | blBitat d a b => exact keeps (blBitat_confined d a b)
    | blSetbit d a v => exact blSetbit_keeps_sentinel h
    | blCount d a => exact keeps (blCount_confined d a)
    | _ => exact False.elim hi

/-! ### Bitvector widths and listings (41_bitvector.md R120, R127) -/

theorem addressable_iff (s : State) (bytes : List Byte) : s.addressable bytes = true ↔ bytes.length = s.byteWidth := by
  simp [State.addressable]

theorem width_lt (s : State) : s.width < 2 ^ 32 := s.vn.isLt

/-- B bytes hold the N bits of a bitvector. -/
theorem width_le (s : State) : s.width ≤ 8 * s.byteWidth := by
  simp only [State.byteWidth, ceilDiv]
  omega

theorem length_seen (s : State) (bytes : List Byte) : (s.seen bytes).length = min bytes.length s.byteWidth := by
  simp [State.seen]

theorem seen_of_addressable {s : State} {bytes : List Byte} (h : s.addressable bytes = true) : s.seen bytes = bytes := by
  rw [addressable_iff] at h
  simp [State.seen, h]

theorem mem_setPositions {bytes : List Byte} {p : Nat} : p ∈ setPositions bytes ↔ getBit bytes p = true := by
  simp only [setPositions, List.mem_filter, List.mem_range, and_iff_right_iff_imp]
  exact lt_length_of_getBit

theorem pairwise_setPositions (bytes : List Byte) : (setPositions bytes).Pairwise (· < ·) :=
  List.pairwise_lt_range.filter _

/-- The count and the listing agree. -/
theorem popcount_eq_length_setPositions (bytes : List Byte) : popcount bytes = (setPositions bytes).length := by
  rw [popcount_eq_bitsBelow, bitsBelow_eq_length_filter, setPositions]

theorem length_setPositions_le (bytes : List Byte) : (setPositions bytes).length ≤ 8 * bytes.length := by
  rw [← popcount_eq_length_setPositions, popcount_eq_bitsBelow]
  exact bitsBelow_le _ _

/-- Positions that fit a word are listed as themselves. -/
theorem toNat_getD_map_zext64 {positions : List Nat} (h : ∀ p ∈ positions, p < 2 ^ 64) (k : Nat) :
    ((positions.map zext64).getD k 0).toNat = positions.getD k 0 := by
  by_cases hk : k < positions.length
  · simp [hk, toNat_zext64 (h _ (List.getElem_mem hk))]
  · simp [Nat.not_lt.mp hk]

theorem bitAccessible_iff (s : State) (bytes : List Byte) (index : Nat) :
    s.bitAccessible bytes index = true ↔ index < s.width ∧ bytes.length = s.byteWidth := by
  simp [State.bitAccessible, addressable_iff]

/-- A write of an accessible bit writes that bit, because the buffer reaches to N. -/
theorem getBit_setBit_of_accessible {s : State} {bytes : List Byte} {p : Nat} (h : s.bitAccessible bytes p = true)
    (v : Bool) (q : Nat) : getBit (setBit bytes p v) q = if q = p then v else getBit bytes q := by
  obtain ⟨hlt, hlen⟩ := (bitAccessible_iff s bytes p).mp h
  have hwidth := width_le s
  have hbyte : p / 8 < bytes.length := by omega
  simp [getBit_setBit, hbyte]

theorem exec_bvSetbit_of_accessible {s : State} {d : BReg} {a : XReg}
    (h : s.bitAccessible (s.readBuf d) (s.readX a).toNat = true) (v : Bool) :
    exec (.bvSetbit d a v) s = .next ((s.writeBuf d (setBit (s.readBuf d) (s.readX a).toNat v)).complete false) := by
  rw [exec_bvSetbit, if_pos h]

theorem exec_bvBitat_of_accessible {s : State} {a : BReg} {b : XReg}
    (h : s.bitAccessible (s.readBuf a) (s.readX b).toNat = true) (d : XReg) :
    exec (.bvBitat d a b) s =
      .next ((s.writeX d (boolWord (getBit (s.readBuf a) (s.readX b).toNat))).complete false) := by
  rw [exec_bvBitat, if_pos h]

/-- In an addressable buffer BV.BITAT returns 1 exactly for the set bits below N. -/
theorem bitvectorReadsOne_iff {s : State} {b : BReg} {p : Nat} (h : s.addressable (s.readBuf b) = true)
    (hp : p < s.width) : bitvectorReadsOne s b p ↔ getBit (s.readBuf b) p = true := by
  have hword : (zext64 p).toNat = p := toNat_zext64 (hp.trans ((width_lt s).trans (by decide)))
  have hexec (e a : XReg) : exec (.bvBitat e b a) (s.writeX a (zext64 p)) =
      .next (((s.writeX a (zext64 p)).writeX e (boolWord (getBit (s.readBuf b) p))).complete false) := by
    rw [exec_bvBitat_of_accessible]
    · simp [hword]
    · simpa [bitAccessible_iff, hword, hp] using (addressable_iff _ _).mp h
  simp only [bitvectorReadsOne, hexec, Host.Outcome.next.injEq, exists_eq_left', complete_readX, readX_writeX_self,
    boolWord_eq_one_iff, forall_const]

/-! ### The laws of the bitvector access commands (41_bitvector.md R129) -/

theorem law_lengthIsWidth (s : State) (d : XReg) : ∃ t, exec (.bvLen d) s = .next t ∧ (t.readX d).toNat = s.width := by
  refine ⟨_, exec_bvLen s d, ?_⟩
  rw [complete_readX, readX_writeX_self, toNat_zext64 ((width_lt s).trans (by decide))]

theorem law_bitvectorReadAfterWrite {s : State} (d : BReg) (a e : XReg) (v : Bool)
    (haddressable : s.addressable (s.readBuf d) = true) (hlt : (s.readX a).toNat < s.width) :
    ∃ t u, exec (.bvSetbit d a v) s = .next t ∧ exec (.bvBitat e d a) t = .next u ∧
      u.readX e = (if v then 1 else 0) ∧
      ∀ p, p ≠ (s.readX a).toNat → getBit (t.readBuf d) p = getBit (s.readBuf d) p := by
  rw [addressable_iff] at haddressable
  have haccessible := (bitAccessible_iff s (s.readBuf d) (s.readX a).toNat).mpr ⟨hlt, haddressable⟩
  refine ⟨_, _, exec_bvSetbit_of_accessible haccessible v, exec_bvBitat_of_accessible ?_ e, ?_, fun p hp => ?_⟩
  · simp [bitAccessible_iff, hlt, haddressable]
  · simp [getBit_setBit_of_accessible haccessible, boolWord_eq]
  · simp [getBit_setBit_of_accessible haccessible, hp]

/-- The positions of laws 3 and 5 are the set bits of the buffer, all of which lie below N. -/
theorem law_countAndListing {s : State} (hwf : Memory.wf s = true) (d e : XReg) (a : BReg)
    (haddressable : s.addressable (s.readBuf a) = true) (hclean : s.tailClean (s.readBuf a)) :
    ∃ t u, exec (.bvCount d a) s = .next t ∧ exec (.bvIndices e a) s = .next u ∧
      ∃ P : List Nat, P.Pairwise (· < ·) ∧ (∀ p, p ∈ P ↔ p < s.width ∧ bitvectorReadsOne s a p) ∧
        (t.readX d).toNat = P.length ∧ u.readX e = t.readX d ∧ u.idxCnt = t.readX d ∧
        ∀ k, (u.readIdx k).toNat = P.getD k 0 := by
  have hbelow {p : Nat} (hp : getBit (s.readBuf a) p = true) : p < s.width := by
    by_contra hge
    simp [hclean p (Nat.not_lt.mp hge)] at hp
  have hcount : (setPositions (s.readBuf a)).length < 2 ^ 64 := by
    have := length_setPositions_le (s.readBuf a)
    have := length_readBuf_le hwf a
    omega
  refine ⟨_, _, exec_bvCount s d a, exec_bvIndices s e a, setPositions (s.readBuf a), pairwise_setPositions _,
    fun p => ?_, ?_⟩
  · rw [mem_setPositions]
    constructor
    · intro hp
      exact ⟨hbelow hp, (bitvectorReadsOne_iff haddressable (hbelow hp)).mpr hp⟩
    · rintro ⟨hlt, hreads⟩
      exact (bitvectorReadsOne_iff haddressable hlt).mp hreads
  · rw [seen_of_addressable haddressable, popcount_eq_length_setPositions]
    refine ⟨by simp [toNat_zext64 hcount], by simp, by simp, ?_⟩
    apply toNat_getD_map_zext64
    intro p hp
    exact (hbelow (mem_setPositions.mp hp)).trans ((width_lt s).trans (by decide))

theorem law_exportBounded (s : State) (d a : BReg) :
    ∃ t, exec (.bvBytes d a) s = .next t ∧ (t.readBuf d).length ≤ s.byteWidth := by
  refine ⟨_, exec_bvBytes s d a, ?_⟩
  simp [length_seen]

theorem bitvectorLaws {s : State} (hwf : Memory.wf s = true) : BitvectorLaws s where
  lengthIsWidth := law_lengthIsWidth s
  readAfterWrite := law_bitvectorReadAfterWrite
  countAndListing := law_countAndListing hwf
  exportBounded := law_exportBounded s

/-- Settles O60, law by law. -/
theorem containerLawsHold : Obligations.ContainerLawsHold :=
  fun _ hwf => ⟨bitlistLaws hwf, bitvectorLaws hwf⟩

end Sys2Proof.ContainerProofs
end

section
/-! PROOFS. The family of 42_bitvector_setalgebra.md: what the set-algebra commands write, and what they keep on operands of
different lengths (R149). -/

namespace Sys2Proof.SetAlgebraProofs

open Sys2Proof.Machine Sys2Proof.Laws

theorem readX_of_changesNoData {s t : State} (h : changesNoData s t) (r : XReg) : t.readX r = s.readX r := by
  obtain ⟨hx, -⟩ := h
  exact hx r

theorem readBuf_of_changesNoData {s t : State} (h : changesNoData s t) (b : BReg) : t.readBuf b = s.readBuf b := by
  obtain ⟨-, hbuf, -⟩ := h
  exact (sameBuffer_iff b s t).mp (hbuf b)

/-! When the operands of a command have the same length (42_bitvector_setalgebra.md R140). -/

theorem bvContains_match_iff (s : State) (d : XReg) (a b : BReg) :
    operandsMismatch s (.bvContains d a b) = false ↔ (s.readBuf a).length = (s.readBuf b).length :=
  bne_eq_false_iff_eq

theorem bvOverlaps_match_iff (s : State) (d : XReg) (a b : BReg) :
    operandsMismatch s (.bvOverlaps d a b) = false ↔ (s.readBuf a).length = (s.readBuf b).length :=
  bne_eq_false_iff_eq

theorem bvOr_match_iff (s : State) (d a b : BReg) :
    operandsMismatch s (.bvOr d a b) = false ↔ (s.readBuf a).length = (s.readBuf b).length :=
  bne_eq_false_iff_eq

/-- The command completes within the frame of its destination, and on a mismatch it changes no data at all. -/
def completesWithin (frame : State → State → Prop) (i : Instr) (s : State) : Prop :=
  ∃ t, exec i s = .next t ∧ completes (operandsMismatch s i) s t ∧ frame s t ∧
    (operandsMismatch s i = true → changesNoData s t)

/-- The mismatch is the same for every command, so a command's own part is its answer on operands of the same length. -/
theorem completesWithin_of_match {frame : State → State → Prop} {i : Instr} {s u : State}
    (hkeep : ∀ t, changesNoData s t → frame s t)
    (hexec : operandsMismatch s i = false → exec i s = .next (u.complete false))
    (hseq : u.seq = s.seq) (hframe : frame s (u.complete false)) : completesWithin frame i s := by
  cases hmismatch : operandsMismatch s i with
  | true =>
    have hnone := changesNoData_complete s true
    exact ⟨_, exec_of_mismatch s i hmismatch, hmismatch ▸ completes_complete s s true rfl, hkeep _ hnone, fun _ => hnone⟩
  | false =>
    refine ⟨_, hexec hmismatch, hmismatch ▸ completes_complete s u false hseq, hframe, fun htrue => ?_⟩
    simp [hmismatch] at htrue

theorem bvContains_completesWithin (s : State) (d : XReg) (a b : BReg) :
    completesWithin (changesOnlyX d) (.bvContains d a b) s :=
  completesWithin_of_match (fun _ => changesOnlyX_of_changesNoData d)
    (fun h => exec_bvContains s d a b ((bvContains_match_iff s d a b).mp h)) rfl (changesOnlyX_writeX s d _ false)

theorem bvOverlaps_completesWithin (s : State) (d : XReg) (a b : BReg) :
    completesWithin (changesOnlyX d) (.bvOverlaps d a b) s :=
  completesWithin_of_match (fun _ => changesOnlyX_of_changesNoData d)
    (fun h => exec_bvOverlaps s d a b ((bvOverlaps_match_iff s d a b).mp h)) rfl (changesOnlyX_writeX s d _ false)

theorem bvOr_completesWithin (s : State) (d a b : BReg) : completesWithin (changesOnlyBuf d) (.bvOr d a b) s :=
  completesWithin_of_match (fun _ => changesOnlyBuf_of_changesNoData d)
    (fun h => exec_bvOr s d a b ((bvOr_match_iff s d a b).mp h)) rfl (changesOnlyBuf_writeBuf s d _ false)

/-- BV.SHIFT has no second operand to mismatch, and leaves an empty buffer as it is (42_bitvector_setalgebra.md R144). -/
theorem bvShift_completes_and_changesOnlyBuf (s : State) (d : BReg) (a : XReg) :
    ∃ t, exec (.bvShift d a) s = .next t ∧ completes false s t ∧ changesOnlyBuf d s t := by
  refine ⟨_, exec_bvShift s d a, ?_⟩
  split
  case isTrue =>
    exact ⟨completes_complete s s false rfl, changesOnlyBuf_of_changesNoData d (changesNoData_complete s false)⟩
  case isFalse => exact ⟨completes_complete s _ false rfl, changesOnlyBuf_writeBuf s d _ false⟩

/-- Settles O59, command by command; the destination kept on a mismatch is part of the data no mismatch changes. -/
theorem setAlgebraWritesOnlyDestination : Obligations.SetAlgebraWritesOnlyDestination := by
  intro s i
  cases i with
  | bvContains d a b =>
    obtain ⟨t, hexec, hcompletes, hframe, hkept⟩ := bvContains_completesWithin s d a b
    exact ⟨t, hexec, hcompletes, hframe, fun h => readX_of_changesNoData (hkept h) d⟩
  | bvOverlaps d a b =>
    obtain ⟨t, hexec, hcompletes, hframe, hkept⟩ := bvOverlaps_completesWithin s d a b
    exact ⟨t, hexec, hcompletes, hframe, fun h => readX_of_changesNoData (hkept h) d⟩
  | bvOr d a b =>
    obtain ⟨t, hexec, hcompletes, hframe, hkept⟩ := bvOr_completesWithin s d a b
    exact ⟨t, hexec, hcompletes, hframe, fun h => readBuf_of_changesNoData (hkept h) d⟩
  | bvShift d a => exact bvShift_completes_and_changesOnlyBuf s d a
  | _ => exact trivial

end Sys2Proof.SetAlgebraProofs
end

section
/-! PROOFS. The family of 60_exceptions.md: what a step into the fault state records and what it leaves unchanged (R171), and which
command records CAPACITY (R175). -/

namespace Sys2Proof.ExceptionProofs

open Sys2Proof.Machine Sys2Proof.Laws Sys2Proof.StateProofs Sys2Proof.BitlistProofs Sys2Proof.SetAlgebraProofs

/-! ### The one word of a command (30_encoding.md R76, R79)

FINFO records the word of the command (log entry 3), so it holds the written value only if no other value decodes to the command. -/

/-- A field standing at bit n of a command word, every other bit 0. -/
def placed {w : Nat} (field : BitVec w) (n : Nat) : CmdWord := field.setWidth 32 <<< n

theorem getLsbD_placed {w : Nat} (field : BitVec w) (n : Nat) {k : Nat} (hk : k < 32) :
    (placed field n).getLsbD k = (decide (n ≤ k) && field.getLsbD (k - n)) := by
  have hdiff : k - n < 32 := by omega
  simp only [placed, BitVec.getLsbD_shiftLeft, BitVec.getLsbD_setWidth, hk, hdiff, ← decide_not, Nat.not_lt, decide_true,
    Bool.true_and]

/-- The w bits of a word from bit n on, put back in their place. -/
theorem placed_extractLsb' (c : CmdWord) (n w : Nat) :
    placed (c.extractLsb' n w) n = c &&& placed (BitVec.allOnes w) n := by
  apply BitVec.eq_of_getLsbD_eq
  intro k hk
  rw [BitVec.getLsbD_and, getLsbD_placed _ _ hk, getLsbD_placed _ _ hk]
  by_cases hn : n ≤ k
  · simp [hn, Bool.and_comm]
  · simp [hn]

/-- A format C word is the union of its fields in their places. -/
theorem formatC_eq_or (opc : BitVec 8) (d a b : Fin 8) (v : Bool) :
    formatC opc d a b v =
      placed opc 0 ||| placed (BitVec.ofFin (w := 3) d) 8 ||| placed (BitVec.ofFin (w := 3) a) 12 |||
        placed (BitVec.ofFin (w := 3) b) 16 ||| placed (BitVec.ofBool v) 20 := by
  apply BitVec.eq_of_getLsbD_eq
  intro k hk
  simp only [formatC, BitVec.getLsbD_or, BitVec.getLsbD_append, getLsbD_placed _ _ hk]
  interval_cases k <;> simp

theorem ofFin_fieldD (c : CmdWord) : BitVec.ofFin (w := 3) (fieldD c) = c.extractLsb' 8 3 := rfl

theorem ofFin_fieldA (c : CmdWord) : BitVec.ofFin (w := 3) (fieldA c) = c.extractLsb' 12 3 := rfl

theorem ofFin_fieldB (c : CmdWord) : BitVec.ofFin (w := 3) (fieldB c) = c.extractLsb' 16 3 := rfl

theorem ofBool_fieldV (c : CmdWord) : BitVec.ofBool (fieldV c) = c.extractLsb' 20 1 := by
  ext k hk
  obtain rfl : k = 0 := by omega
  simp [fieldV]

/-- The command a row makes of a word has the row's code, and the word's own bits where the mask leaves room for the fields. -/
theorem encode_instr (c : CmdWord) :
    ∀ r ∈ opcodeTable, encode (r.mnemonic.instr c) = r.code ||| (c &&& ~~~r.mask) := by
  simp only [opcodeTable, List.forall_mem_cons, Mnemonic.instr, encode, formatC_eq_or, ofFin_fieldD, ofFin_fieldA,
    ofFin_fieldB, ofBool_fieldV, placed_extractLsb', BitVec.or_assoc]
  simp [placed, ← BitVec.and_or_distrib_left]

/-- The mask's bits of a matching word are the code, so the command it makes has the word itself. -/
theorem encode_instr_of_match {c : CmdWord} {r : Row} (hr : r ∈ opcodeTable) (h : c &&& r.mask = r.code) :
    encode (r.mnemonic.instr c) = c := by
  calc encode (r.mnemonic.instr c) = r.code ||| (c &&& ~~~r.mask) := encode_instr c r hr
    _ = (c &&& r.mask) ||| (c &&& ~~~r.mask) := by rw [h]
    _ = c := by rw [← BitVec.and_or_distrib_left, BitVec.or_not_self, BitVec.and_allOnes]

/-- A value whose high half is 0 is its low half, zero-extended. -/
theorem setWidth_low_half {w : Word} (h : w.extractLsb' 32 32 = 0) : (w.extractLsb' 0 32).setWidth 64 = w := by
  have hhigh : w.toNat / 2 ^ 32 % 2 ^ 32 = 0 := by simpa [Nat.shiftRight_eq_div_pow] using congrArg BitVec.toNat h
  apply BitVec.eq_of_toNat_eq
  simp only [BitVec.toNat_setWidth, BitVec.extractLsb'_toNat, Nat.shiftRight_zero]
  omega

theorem cmdValue_of_decode {w : Word} {i : Instr} (h : decode w = .ok i) : cmdValue i = w := by
  obtain ⟨hhigh, r, hr, hmatch, rfl⟩ := decode_ok h
  rw [cmdValue, encode_instr_of_match hr hmatch, setWidth_low_half hhigh]

/-! ### Entering the fault state (60_exceptions.md R171) -/

@[simp] theorem writeCfg_faulted (s : State) (v : Word) : (s.writeCfg v).faulted = s.faulted := by
  unfold State.writeCfg; split <;> rfl

@[simp] theorem writeBlen_faulted (s : State) (b : BReg) (v : Word) : (s.writeBlen b v).faulted = s.faulted := by
  unfold State.writeBlen; split <;> rfl

@[simp] theorem writeBufData_faulted (s : State) (b : BReg) (j : Nat) (v : Word) :
    (s.writeBufData b j v).faulted = s.faulted := rfl

/-- No event but a CMD write sets FAULTED: the other writes keep it, and a reset clears it. -/
theorem served_faulted {s t : State} {e : HostEvent} (h : Served s t e) :
    (∃ w, e = .write 0x20 8 w) ∨ t.faulted = s.faulted ∨ t.faulted = false := by
  cases h with
  | same _ ht => exact .inr (.inl (by rw [ht]))
  | reset ht => exact .inr (.inr (by rw [ht, resetUnit_faulted]))
  | ctrl v _ ht => exact .inr (.inr (by rw [ht, resetUnit_faulted]))
  | cfg v ht => exact .inr (.inl (by rw [ht, writeCfg_faulted]))
  | x off r v _ ht => exact .inr (.inl (by rw [ht, writeX_faulted]))
  | blen off b v _ ht => exact .inr (.inl (by rw [ht, writeBlen_faulted]))
  | data off b j v ht => exact .inr (.inl (by rw [ht, writeBufData_faulted]))
  | cmd w => exact .inl ⟨w, rfl⟩

/-- A step into the fault state serves a CMD write. -/
theorem cmd_of_step_fault {s t : State} (h : step s = .next t) (hs : s.faulted = false) (ht : t.faulted = true) :
    ∃ w rest, s.requests = .write 0x20 8 w :: rest := by
  rcases step_next h with ⟨-, rfl⟩ | ⟨e, rest, rs, hreq, -, hserved⟩
  case inl => simp [hs] at ht
  case inr =>
    rcases served_faulted hserved with ⟨w, rfl⟩ | hkept | hcleared
    · exact ⟨w, rest, hreq⟩
    · simp [hkept, hs] at ht
    · simp [hcleared] at ht

/-- A CMD write that faults enters the fault state with a cause and the written value, whether or not the value was a command. -/
theorem cmdWrite_fault {w : Word} {s t : State} (h : cmdWrite w s = .next t) (hs : s.faulted = false)
    (ht : t.faulted = true) : ∃ c, c ≠ .none ∧ t = s.enterFault c w := by
  rcases cmdWrite_cases h with
    ⟨hfaulted, -⟩ | ⟨-, c, v, hcause, rfl, hv⟩ | ⟨-, i, -, -, -, ⟨-, -, hkept, -⟩, -⟩
  case inl => simp [hs] at hfaulted
  case inr.inr => simp [hkept, hs] at ht
  case inr.inl =>
    rcases hv with rfl | ⟨i, hdecode, rfl⟩
    · exact ⟨c, hcause, rfl⟩
    · exact ⟨c, hcause, by rw [cmdValue_of_decode hdecode]⟩

/-- Settles O10: a step into the fault state serves a CMD write, which is `cmdWrite` on the answered port, and a fault there is
`State.enterFault` with the written value. -/
theorem faultEntryIsPrecise : Obligations.FaultEntryIsPrecise := by
  intro s t hstep hs ht
  obtain ⟨w, rest, hreq⟩ := cmd_of_step_fault hstep hs ht
  rw [step_write hreq (accessedReg_cmd s.build), writeReg] at hstep
  obtain ⟨c, hcause, rfl⟩ := cmdWrite_fault hstep hs ht
  exact ⟨w, rest, hreq, hcause, rfl⟩

/-! ### CAPACITY (60_exceptions.md R175) -/

/-- The command completes with the recorded cause as it was. -/
def keepsCause (i : Instr) (s : State) : Prop := ∃ t, exec i s = .next t ∧ t.fcause = s.fcause

/-- The only fault the command can raise here is MALFORMED_BITLIST. -/
def faultsOnlyMalformed (i : Instr) (s : State) : Prop :=
  keepsCause i s ∨ exec i s = .next (s.enterFault .malformedBitlist (cmdValue i))

/-- A command that reads a bitlist faults on a malformed one, so only a well-formed one is in question. -/
theorem faultsOnlyMalformed_of_wf {i : Instr} {s : State} {b : BReg} (hi : bitlistOperand i = some b)
    (h : blWf (s.readBuf b) = true → keepsCause i s) : faultsOnlyMalformed i s := by
  by_cases hmalformed : malformed (s.readBuf b)
  · exact .inr (exec_of_malformed_operand s hi hmalformed)
  · exact .inl (h ((blWf_iff_not_malformed _).mpr hmalformed))

/-- Operands of different lengths end a command without a fault, so only operands of the same length are in question. -/
theorem keepsCause_of_match {i : Instr} {s : State} (h : operandsMismatch s i = false → keepsCause i s) :
    keepsCause i s := by
  cases hmismatch : operandsMismatch s i with
  | true => exact ⟨_, exec_of_mismatch s i hmismatch, rfl⟩
  | false => exact h hmismatch

theorem bvContains_keepsCause (s : State) (d : XReg) (a b : BReg) : keepsCause (.bvContains d a b) s :=
  keepsCause_of_match fun h => ⟨_, exec_bvContains s d a b ((bvContains_match_iff s d a b).mp h), rfl⟩

theorem bvOverlaps_keepsCause (s : State) (d : XReg) (a b : BReg) : keepsCause (.bvOverlaps d a b) s :=
  keepsCause_of_match fun h => ⟨_, exec_bvOverlaps s d a b ((bvOverlaps_match_iff s d a b).mp h), rfl⟩

theorem bvOr_keepsCause (s : State) (d a b : BReg) : keepsCause (.bvOr d a b) s :=
  keepsCause_of_match fun h => ⟨_, exec_bvOr s d a b ((bvOr_match_iff s d a b).mp h), rfl⟩

theorem blSetbit_faultsOnlyMalformed (s : State) (d : BReg) (a : XReg) (v : Bool) :
    faultsOnlyMalformed (.blSetbit d a v) s := by
  refine faultsOnlyMalformed_of_wf rfl fun hwf => ?_
  rcases Nat.lt_or_ge (s.readX a).toNat (blLen (s.readBuf d)) with hlt | hge
  · exact ⟨_, exec_blSetbit_of_lt d a v hwf hlt, rfl⟩
  · exact ⟨_, exec_blSetbit_of_ge d a v hwf hge, rfl⟩

/-- A command on which CAPACITY is not raised: every command but BL.NEW, and BL.NEW of a length that fits. -/
theorem faultsOnlyMalformed_of_fits (i : Instr) (s : State)
    (h : ∀ d a, i = .blNew d a → (s.readX a).toNat ≤ 8 * s.build.maxb - 1) : faultsOnlyMalformed i s := by
  cases i with
  | nop => exact .inl ⟨_, exec_nop s, rfl⟩
  | blNew d a => exact .inl ⟨_, exec_blNew_of_le s d a (h d a rfl), rfl⟩
  | blLen d a => exact faultsOnlyMalformed_of_wf rfl fun hwf => ⟨_, exec_blLen s d a hwf, rfl⟩
  | blBitat d a b => exact faultsOnlyMalformed_of_wf rfl fun hwf => ⟨_, exec_blBitat s d a b hwf, rfl⟩
  | blSetbit d a v => exact blSetbit_faultsOnlyMalformed s d a v
  | blCount d a => exact faultsOnlyMalformed_of_wf rfl fun hwf => ⟨_, exec_blCount s d a hwf, rfl⟩
  | blBytes d a => exact faultsOnlyMalformed_of_wf rfl fun hwf => ⟨_, exec_blBytes s d a hwf, rfl⟩
  | bvNew d => exact .inl ⟨_, exec_bvNew s d, rfl⟩
  | bvLen d => exact .inl ⟨_, exec_bvLen s d, rfl⟩
  | bvBitat d a b => exact .inl ⟨_, exec_bvBitat s d a b, rfl⟩
  | bvSetbit d a v => exact .inl ⟨_, exec_bvSetbit s d a v, by split <;> rfl⟩
  | bvCount d a => exact .inl ⟨_, exec_bvCount s d a, rfl⟩
  | bvBytes d a => exact .inl ⟨_, exec_bvBytes s d a, rfl⟩
  | bvIndices d a => exact .inl ⟨_, exec_bvIndices s d a, rfl⟩
  | bvContains d a b => exact .inl (bvContains_keepsCause s d a b)
  | bvOverlaps d a b => exact .inl (bvOverlaps_keepsCause s d a b)
  | bvOr d a b => exact .inl (bvOr_keepsCause s d a b)
  | bvShift d a => exact .inl ⟨_, exec_bvShift s d a, by split <;> rfl⟩

theorem fcause_of_faultsOnlyMalformed {i : Instr} {s t : State} (h : faultsOnlyMalformed i s) (hexec : exec i s = .next t) :
    t.fcause = s.fcause ∨ t.fcause = .malformedBitlist := by
  rcases h with ⟨u, hu, hkept⟩ | hfault
  · obtain rfl : u = t := by simpa [hu] using hexec
    exact .inl hkept
  · obtain rfl : s.enterFault .malformedBitlist (cmdValue i) = t := by simpa [hfault] using hexec
    exact .inr rfl

/-- Settles O32: BL.NEW of a length that does not fit enters the fault state with CAPACITY, and nothing else raises more than
MALFORMED_BITLIST. -/
theorem capacityFaultsOnlyInNewBitlist : Obligations.CapacityFaultsOnlyInNewBitlist := by
  refine ⟨fun s d a hgt => ⟨_, _, exec_blNew_of_gt s d a hgt, faultsWith_enterFault s .capacity _⟩,
    fun s t i hexec ht hs => ?_⟩
  by_contra hno
  have hfits (d : BReg) (a : XReg) (hi : i = .blNew d a) : (s.readX a).toNat ≤ 8 * s.build.maxb - 1 :=
    Nat.not_lt.mp fun hgt => hno ⟨d, a, hi, hgt⟩
  rcases fcause_of_faultsOnlyMalformed (faultsOnlyMalformed_of_fits i s hfits) hexec with hkept | hmalformed
  · exact hs (hkept ▸ ht)
  · simp [hmalformed] at ht

end Sys2Proof.ExceptionProofs
end

section
/-! PROOFS. The command words of 30_encoding.md: decoding undoes encoding, a command has one word, and the opcode space is as R80
maps it. -/

namespace Sys2Proof.CodecProofs

open Sys2Proof.Machine Sys2Proof.Laws Sys2Proof.EncodingProofs Sys2Proof.ExceptionProofs

/-! ### Decoding the word of a command -/

/-- Every command's word selects a row that reads the command back (30_encoding.md R84). -/
theorem encodedRow (i : Instr) : EncodedRow.Statement i := by
  cases i with
  | nop => exact EncodedRow.nop
  | blNew d a => exact EncodedRow.blNew d a
  | blLen d a => exact EncodedRow.blLen d a
  | blBitat d a b => exact EncodedRow.blBitat d a b
  | blSetbit d a v => exact EncodedRow.blSetbit d a v
  | blCount d a => exact EncodedRow.blCount d a
  | blBytes d a => exact EncodedRow.blBytes d a
  | bvNew d => exact EncodedRow.bvNew d
  | bvLen d => exact EncodedRow.bvLen d
  | bvBitat d a b => exact EncodedRow.bvBitat d a b
  | bvSetbit d a v => exact EncodedRow.bvSetbit d a v
  | bvCount d a => exact EncodedRow.bvCount d a
  | bvBytes d a => exact EncodedRow.bvBytes d a
  | bvIndices d a => exact EncodedRow.bvIndices d a
  | bvContains d a b => exact EncodedRow.bvContains d a b
  | bvOverlaps d a b => exact EncodedRow.bvOverlaps d a b
  | bvOr d a b => exact EncodedRow.bvOr d a b
  | bvShift d a => exact EncodedRow.bvShift d a

/-! The two halves of the value a command is written as (30_encoding.md R75). -/

theorem high_half_cmdValue (i : Instr) : (cmdValue i).extractLsb' 32 32 = 0 := by
  ext k hk
  simp [cmdValue]

theorem low_half_cmdValue (i : Instr) : (cmdValue i).extractLsb' 0 32 = encode i := by
  ext k hk
  simp [cmdValue, hk]
  omega

/-- Settles O1: the command's word matches its row, and no other row can be selected. -/
theorem decodeInvertsEncode : Obligations.DecodeInvertsEncode := by
  intro i
  obtain ⟨r, hr, hmatch, hinstr⟩ := encodedRow i
  rw [decode_of_match (high_half_cmdValue i) hr (by rwa [low_half_cmdValue]), low_half_cmdValue, hinstr]

/-- Settles O2: the row's mask fixes every bit that is in no field, so the decoded fields give back the whole value. -/
theorem everyCommandHasOneWord : Obligations.EveryCommandHasOneWord :=
  fun _ _ h => (cmdValue_of_decode h).symm

/-! ### The opcode space (30_encoding.md R80) -/

/-- The opcode lies in the range R80 gives to the command's family. -/
def opcodeInFamily (i : Instr) (opc : Nat) : Prop :=
  match i with
  | .nop => opc = 0x01
  | .blNew .. | .blLen .. | .blBitat .. | .blSetbit .. | .blCount .. | .blBytes .. => 0x10 ≤ opc ∧ opc ≤ 0x15
  | _ => 0x20 ≤ opc ∧ opc ≤ 0x2A

/-- Every row's opcode lies in the range of the family of the command the row makes. -/
theorem opcodeInFamily_row (c : CmdWord) :
    ∀ r ∈ opcodeTable, opcodeInFamily (r.mnemonic.instr c) (fieldOpc r.code).toNat := by
  simp only [opcodeTable, List.forall_mem_cons, Mnemonic.instr, opcodeInFamily]
  simp [fieldOpc]

/-- The opcode of a decodable value lies in the range of its command's family. -/
theorem opcodeInFamily_of_decode {w : Word} {i : Instr} (h : decode w = .ok i) :
    opcodeInFamily i (w.extractLsb' 0 8).toNat := by
  obtain ⟨-, r, hr, hmatch, rfl⟩ := decode_ok h
  have hopc : w.extractLsb' 0 8 = fieldOpc (w.extractLsb' 0 32) := by
    ext k hk
    simp [fieldOpc]
  rw [hopc, fieldOpc_of_match hr hmatch]
  exact opcodeInFamily_row _ r hr

/-- The three ranges of the families together. -/
theorem opcode_assigned_of_family {i : Instr} {opc : Nat} (h : opcodeInFamily i opc) :
    opc = 0x01 ∨ (0x10 ≤ opc ∧ opc ≤ 0x15) ∨ (0x20 ≤ opc ∧ opc ≤ 0x2A) := by
  cases i <;> simp_all [opcodeInFamily]

/-- Settles O4: a decodable value has its family's opcode, and the reserved opcodes lie in no family's range. -/
theorem opcodeSpaceIsAsMapped : Obligations.OpcodeSpaceIsAsMapped := by
  intro w opc
  refine ⟨fun hreserved => ?_, fun i h => opcodeInFamily_of_decode h⟩
  cases hdec : decode w with
  | error e => exact ⟨e, rfl⟩
  | ok i =>
    have hfamily : opcodeInFamily i opc := opcodeInFamily_of_decode hdec
    have := opcode_assigned_of_family hfamily
    omega

/-- Settles O5: six closed values, decoded one by one. -/
theorem writtenOutWordsDecode : Obligations.WrittenOutWordsDecode :=
  ⟨by decide, by decide, by decide, by decide, by decide, by decide⟩

end Sys2Proof.CodecProofs
end

section
/-! PROOFS. What a step keeps (10_state.md sections 3, 5 and 6, 60_exceptions.md section 4), the run of a sequence of events
(70_reset_and_hazards.md section 5), both resets, the two outcomes of a CMD write to an unfaulted unit, and NOP (43_system.md). -/

namespace Sys2Proof.StepProofs

open Sys2Proof.Machine Sys2Proof.Laws Sys2Proof.StateProofs Sys2Proof.MemoryProofs Sys2Proof.EncodingProofs
open Sys2Proof.ExceptionProofs

/-! ### The events that reset the unit (70_reset_and_hazards.md R195) -/

/-- The hardware reset, or a CTRL write with bit 0 = 1. -/
def isReset (e : HostEvent) : Prop := e = .rst ∨ ∃ v : Word, v.getLsbD 0 = true ∧ e = .write 0x38 8 v

theorem isReset_ctrl {v : Word} (h : v.getLsbD 0 = true) : isReset (.write 0x38 8 v) := .inr ⟨v, h, rfl⟩

/-- A pending reset event, as the statements about steps name it. -/
theorem requests_of_isReset {s : State} {e : HostEvent} {rest : List HostEvent} (hreq : s.requests = e :: rest)
    (h : isReset e) :
    s.requests = .rst :: rest ∨ ∃ v : Word, v.getLsbD 0 = true ∧ s.requests = .write 0x38 8 v :: rest := by
  rcases h with rfl | ⟨v, hv, rfl⟩
  · exact .inl hreq
  · exact .inr ⟨v, hv, hreq⟩

/-! ### Leaving the faulted state (60_exceptions.md section 4) -/

/-- A faulted unit drops commands, and no host write but a reset touches FAULTED. -/
theorem served_keeps_faulted {s t : State} {e : HostEvent} (h : Served s t e) (hs : s.faulted = true) :
    t.faulted = true ∨ isReset e := by
  cases h with
  | same _ ht => exact .inl (by rw [ht, hs])
  | reset => exact .inr (.inl rfl)
  | ctrl v hv => exact .inr (isReset_ctrl hv)
  | cfg v ht => exact .inl (by rw [ht, writeCfg_faulted, hs])
  | x off r v _ ht => exact .inl (by rw [ht, writeX_faulted, hs])
  | blen off b v _ ht => exact .inl (by rw [ht, writeBlen_faulted, hs])
  | data off b j v ht => exact .inl (by rw [ht, writeBufData_faulted, hs])
  | cmd w hcmd =>
    rw [cmdWrite_of_faulted hs] at hcmd
    cases hcmd
    exact .inl hs

/-- Settles O11: the step serves an event, and among those only a reset clears FAULTED. -/
theorem onlyResetLeavesFault : Obligations.OnlyResetLeavesFault := by
  intro s t hstep hs ht
  rcases step_next hstep with ⟨-, rfl⟩ | ⟨e, rest, rs, hreq, -, hserved⟩
  case inl => simp [hs] at ht
  case inr =>
    rcases served_keeps_faulted hserved hs with hkept | hreset
    · simp [hkept] at ht
    · exact ⟨rest, requests_of_isReset hreq hreset⟩

/-! ### The listing (10_state.md section 3) -/

theorem sameListing_refl (s : State) : sameListing s s := ⟨rfl, fun _ => rfl⟩

theorem writeCfg_sameListing (s : State) (v : Word) : sameListing s (s.writeCfg v) := by
  unfold State.writeCfg; split <;> exact sameListing_refl s

theorem writeBlen_sameListing (s : State) (b : BReg) (v : Word) : sameListing s (s.writeBlen b v) := by
  unfold State.writeBlen; split <;> exact sameListing_refl s

/-- A CMD write that changes the listing is the word of a BV.INDICES. -/
theorem cmdWrite_listing {w : Word} {s t : State} (h : cmdWrite w s = .next t) :
    sameListing s t ∨ ∃ d a, w = cmdValue (.bvIndices d a) := by
  rcases cmdWrite_cases h with
    ⟨-, rfl⟩ | ⟨-, c, v, -, rfl, -⟩ | ⟨-, i, hdecode, -, -, -, ⟨d, a, rfl⟩ | hsame⟩
  · exact .inl (sameListing_refl _)
  · exact .inl ⟨rfl, fun _ => rfl⟩
  · exact .inr ⟨d, a, (cmdValue_of_decode hdecode).symm⟩
  · exact .inl hsame

theorem served_listing {s t : State} {e : HostEvent} (h : Served s t e) :
    sameListing s t ∨ isReset e ∨ ∃ d a, e = .write 0x20 8 (cmdValue (.bvIndices d a)) := by
  cases h with
  | same _ ht => exact .inl (ht ▸ sameListing_refl s)
  | reset => exact .inr (.inl (.inl rfl))
  | ctrl v hv => exact .inr (.inl (isReset_ctrl hv))
  | cfg v ht => exact .inl (ht ▸ writeCfg_sameListing s v)
  | x off r v _ ht => exact .inl (ht ▸ sameListing_refl s)
  | blen off b v _ ht => exact .inl (ht ▸ writeBlen_sameListing s b v)
  | data off b j v ht => exact .inl (ht ▸ sameListing_refl s)
  | cmd w hcmd =>
    rcases cmdWrite_listing hcmd with hsame | ⟨d, a, rfl⟩
    · exact .inl hsame
    · exact .inr (.inr ⟨d, a, rfl⟩)

/-- Settles O12: the step serves an event, and among those only a reset and a BV.INDICES command write the listing. -/
theorem onlyIndicesAndResetWriteListing : Obligations.OnlyIndicesAndResetWriteListing := by
  intro s t hstep hchanged
  rcases step_next hstep with ⟨-, rfl⟩ | ⟨e, rest, rs, hreq, -, hserved⟩
  case inl => exact absurd (sameListing_refl t) hchanged
  case inr =>
    rcases served_listing hserved with hsame | hreset | ⟨d, a, rfl⟩
    · exact absurd hsame hchanged
    · exact ⟨rest, (requests_of_isReset hreq hreset).imp_right .inl⟩
    · exact ⟨rest, .inr (.inr ⟨d, a, hreq⟩)⟩

/-! ### The width and the build (10_state.md sections 5 and 6) -/

@[simp] theorem writeCfg_build (s : State) (v : Word) : (s.writeCfg v).build = s.build := by
  unfold State.writeCfg; split <;> rfl

@[simp] theorem writeBlen_build (s : State) (b : BReg) (v : Word) : (s.writeBlen b v).build = s.build := by
  unfold State.writeBlen; split <;> rfl

@[simp] theorem writeBlen_vn (s : State) (b : BReg) (v : Word) : (s.writeBlen b v).vn = s.vn := by
  unfold State.writeBlen; split <;> rfl

/-- The written width, when it is taken, is legal (10_state.md R30). -/
theorem writeCfg_vn (s : State) (v : Word) :
    (s.writeCfg v).vn = s.vn ∨
      ((s.writeCfg v).vn = v.setWidth 32 ∧ 1 ≤ (v.setWidth 32).toNat ∧ (v.setWidth 32).toNat ≤ 8 * s.build.maxb) := by
  unfold State.writeCfg
  split
  case isTrue hlegal => exact .inr ⟨rfl, hlegal⟩
  case isFalse => exact .inl rfl

/-- A command writes neither the build nor CFG, whether it is dropped, faults or completes (30_encoding.md R94). -/
theorem cmdWrite_keeps_config {w : Word} {s t : State} (h : cmdWrite w s = .next t) : t.build = s.build ∧ t.vn = s.vn := by
  rcases cmdWrite_cases h with ⟨-, rfl⟩ | ⟨-, c, v, -, rfl, -⟩ | ⟨-, i, -, -, -, ⟨hbuild, hvn, -⟩, -⟩
  · exact ⟨rfl, rfl⟩
  · exact ⟨rfl, rfl⟩
  · exact ⟨hbuild, hvn⟩

theorem served_build {s t : State} {e : HostEvent} (h : Served s t e) : t.build = s.build := by
  cases h with
  | same _ ht => rw [ht]
  | reset ht => rw [ht, resetUnit_build]
  | ctrl v _ ht => rw [ht, resetUnit_build]
  | cfg v ht => rw [ht, writeCfg_build]
  | x off r v _ ht => rw [ht, writeX_build]
  | blen off b v _ ht => rw [ht, writeBlen_build]
  | data off b j v ht => rw [ht]; rfl
  | cmd w hcmd => exact (cmdWrite_keeps_config hcmd).1

theorem served_width {s t : State} {e : HostEvent} (h : Served s t e) :
    t.vn = s.vn ∨ isReset e ∨ ∃ v : Word, e = .write 0x10 8 v ∧ t.vn = v.setWidth 32 ∧
      1 ≤ (v.setWidth 32).toNat ∧ (v.setWidth 32).toNat ≤ 8 * s.build.maxb := by
  cases h with
  | same _ ht => exact .inl (by rw [ht])
  | reset => exact .inr (.inl (.inl rfl))
  | ctrl v hv => exact .inr (.inl (isReset_ctrl hv))
  | cfg v ht =>
    rcases writeCfg_vn s v with hkept | hlegal
    · exact .inl (by rw [ht, hkept])
    · exact .inr (.inr ⟨v, rfl, by rwa [ht]⟩)
  | x off r v _ ht => exact .inl (by rw [ht, writeX_vn])
  | blen off b v _ ht => exact .inl (by rw [ht, writeBlen_vn])
  | data off b j v ht => exact .inl (by rw [ht]; rfl)
  | cmd w hcmd => exact .inl (cmdWrite_keeps_config hcmd).2

/-- Settles O13: no event changes the build, and only a reset and a legal CFG write change the width. -/
theorem onlyHostAndResetWriteWidth : Obligations.OnlyHostAndResetWriteWidth := by
  intro s t hstep
  rcases step_next hstep with ⟨-, rfl⟩ | ⟨e, rest, rs, hreq, -, hserved⟩
  case inl => exact ⟨rfl, fun hne => absurd rfl hne⟩
  case inr =>
    have hbuild := served_build hserved
    refine ⟨hbuild, fun hne => ⟨rest, ?_⟩⟩
    rcases served_width hserved with hkept | hreset | ⟨v, rfl, hvn, hlegal⟩
    · exact absurd hkept hne
    · exact (requests_of_isReset hreq hreset).imp_right .inl
    · exact .inr (.inr ⟨v, hreq, hvn, hlegal⟩)

/-! ### Runs (70_reset_and_hazards.md section 5) -/

@[simp] theorem writeCfg_requests (s : State) (v : Word) : (s.writeCfg v).requests = s.requests := by
  unfold State.writeCfg; split <;> rfl

@[simp] theorem writeCfg_responses (s : State) (v : Word) : (s.writeCfg v).responses = s.responses := by
  unfold State.writeCfg; split <;> rfl

@[simp] theorem writeBlen_requests (s : State) (b : BReg) (v : Word) : (s.writeBlen b v).requests = s.requests := by
  unfold State.writeBlen; split <;> rfl

@[simp] theorem writeBlen_responses (s : State) (b : BReg) (v : Word) : (s.writeBlen b v).responses = s.responses := by
  unfold State.writeBlen; split <;> rfl

/-- The unit does not touch the port's queues while it serves an event. -/
theorem served_port {s t : State} {e : HostEvent} (h : Served s t e) :
    t.requests = s.requests ∧ t.responses = s.responses := by
  cases h with
  | same _ ht => exact ht ▸ ⟨rfl, rfl⟩
  | reset ht => exact ht ▸ ⟨rfl, rfl⟩
  | ctrl v _ ht => exact ht ▸ ⟨rfl, rfl⟩
  | cfg v ht => exact ht ▸ ⟨writeCfg_requests s v, writeCfg_responses s v⟩
  | x off r v _ ht => exact ht ▸ ⟨rfl, rfl⟩
  | blen off b v _ ht => exact ht ▸ ⟨writeBlen_requests s b v, writeBlen_responses s b v⟩
  | data off b j v ht => exact ht ▸ ⟨rfl, rfl⟩
  | cmd w hcmd =>
    rcases cmdWrite_cases hcmd with ⟨-, rfl⟩ | ⟨-, c, v, -, rfl, -⟩ | ⟨-, i, -, -, -, ⟨-, -, -, -, -, hreq, hresp⟩, -⟩
    · exact ⟨rfl, rfl⟩
    · exact ⟨rfl, rfl⟩
    · exact ⟨hreq, hresp⟩

/-- One step takes the oldest event and answers it once, or not at all when it is the hardware reset. -/
theorem step_of_requests_cons {s : State} {e : HostEvent} {rest : List HostEvent} (hreq : s.requests = e :: rest) :
    ∃ t rs, step s = .next t ∧ t.requests = rest ∧ t.responses = s.responses ++ rs ∧
      rs.length = if e != .rst then 1 else 0 := by
  obtain ⟨t, hstep⟩ := step_total s
  rcases step_next hstep with ⟨hnil, -⟩ | ⟨e', rest', rs, hreq', hlen, hserved⟩
  case inl => simp [hreq] at hnil
  case inr =>
    obtain ⟨rfl, rfl⟩ : e' = e ∧ rest' = rest := by simpa [hreq'] using hreq
    obtain ⟨hrequests, hresponses⟩ := served_port hserved
    exact ⟨t, rs, hstep, hrequests, hresponses, hlen⟩

theorem run_succ_of_next {M : Host.Core} {s t : M.State} (h : M.step s = .next t) (k : Nat) :
    M.run (k + 1) s = M.run k t := by
  simp only [Host.Core.run, h]

theorem run_succ_of_step {s t : State} (h : step s = .next t) (k : Nat) :
    Host.Core.run Sys2Proof.core (k + 1) s = Host.Core.run Sys2Proof.core k t :=
  run_succ_of_next (M := Sys2Proof.core) h k

/-- A run over the pending events, one step for each. -/
theorem run_serves (events : List HostEvent) : ∀ s : State, s.requests = events →
    ∃ t, Host.Core.run Sys2Proof.core events.length s = .next t ∧ t.runEnded = true ∧
      ∃ answers, t.responses = s.responses ++ answers ∧ answers.length = (events.filter fun e => e != .rst).length := by
  induction events with
  | nil => exact fun s hreq => ⟨s, rfl, by simp [State.runEnded, hreq], [], by simp, rfl⟩
  | cons e rest ih =>
    intro s hreq
    obtain ⟨u, rs, hstep, hrest, hrs, hlen⟩ := step_of_requests_cons hreq
    obtain ⟨t, hrun, hended, answers, hanswers, hcount⟩ := ih u hrest
    refine ⟨t, ?_, hended, rs ++ answers, by rw [hanswers, hrs, List.append_assoc], ?_⟩
    · rw [List.length_cons, run_succ_of_step hstep, hrun]
    · rw [List.length_append, hlen, hcount, List.filter_cons]
      split <;> simp [Nat.add_comm]

/-- Settles O17, by induction on the pending events. -/
theorem runServesEveryEvent : Obligations.RunServesEveryEvent := fun s => run_serves s.requests s rfl

/-! ### Reset (70_reset_and_hazards.md section 1) -/

/-- Settles O19: both resets are `State.resetUnit`, which keeps the build and the port. -/
theorem bothResetsRestoreResetState : Obligations.BothResetsRestoreResetState := by
  intro s rest
  refine ⟨fun hreq => by rw [step_cons hreq]; rfl, fun v hreq hv => ?_⟩
  rw [step_write hreq (accessedReg_control s.build (r := .ctrl) (by simp [controlOffsets])), writeReg, State.writeCtrl,
    if_pos hv]
  rfl

/-! ### CMD writes to an unfaulted unit (30_encoding.md section 5, 60_exceptions.md section 2) -/

theorem cmdWrite_of_decode {s : State} {w : Word} {i : Instr} (hs : s.faulted = false) (h : decode w = .ok i) :
    cmdWrite w s = exec i s := by
  simp [cmdWrite, hs, h]

theorem cmdWrite_of_error {s : State} {w : Word} {e : DecodeError} (hs : s.faulted = false) (h : decode w = .error e) :
    cmdWrite w s = .next (s.enterFault .illegalCmd w) := by
  simp [cmdWrite, hs, h]

/-- Settles O6: the step of a CMD write is `cmdWrite`, which runs what it decodes. -/
theorem stepRunsDecodedCommand : Obligations.StepRunsDecodedCommand := by
  intro s w rest i hreq hs hdecode
  rw [step_write hreq (accessedReg_cmd s.build), writeReg]
  apply cmdWrite_of_decode _ hdecode
  exact hs

/-- Settles O8: the step of a CMD write is `cmdWrite`, which enters the fault state when nothing decodes. -/
theorem illegalCommandFaults : Obligations.IllegalCommandFaults := by
  intro s w rest e hreq hs hdecode
  refine ⟨_, ?_, faultsWith_enterFault _ .illegalCmd w⟩
  rw [step_write hreq (accessedReg_cmd s.build), writeReg]
  apply cmdWrite_of_error _ hdecode
  exact hs

/-! ### NOP (43_system.md R160) -/

/-- Settles O30: NOP is completion and nothing else. -/
theorem nopOnlyCompletes : Obligations.NopOnlyCompletes :=
  fun s => ⟨_, exec_nop s, completes_complete s s false rfl, changesNoData_complete s false⟩

end Sys2Proof.StepProofs
end

section
/-! PROOFS. The bitlist commands one by one (40_bitlist.md section 2), and laws 1 and 2 of its section 3. -/

namespace Sys2Proof.BitlistCommandProofs

open Sys2Proof.Machine Sys2Proof.Laws Sys2Proof.ContainerProofs

/-! ### How a command ends that writes one register -/

/-- The answer of a command that completes with one scalar register written. -/
theorem completes_and_changesOnlyX (s : State) (d : XReg) (v : Word) :
    completes false s ((s.writeX d v).complete false) ∧ changesOnlyX d s ((s.writeX d v).complete false) :=
  ⟨completes_complete s _ false rfl, changesOnlyX_writeX s d v false⟩

/-- The answer of a command that completes with one buffer written. -/
theorem completes_and_changesOnlyBuf (s : State) (d : BReg) (bytes : List Byte) :
    completes false s ((s.writeBuf d bytes).complete false) ∧
      changesOnlyBuf d s ((s.writeBuf d bytes).complete false) :=
  ⟨completes_complete s _ false rfl, changesOnlyBuf_writeBuf s d bytes false⟩

/-- The answer of a command that leaves its destination buffer as it is. -/
theorem completes_and_changesNothing (s : State) (d : BReg) :
    completes false s (s.complete false) ∧ changesOnlyBuf d s (s.complete false) :=
  ⟨completes_complete s s false rfl, changesOnlyBuf_of_changesNoData d (changesNoData_complete s false)⟩

/-! ### BL.NEW, BL.LEN, BL.COUNT (40_bitlist.md R102, R105, R107) -/

theorem length_newBitlist (n : Nat) : (newBitlist n).length = n / 8 + 1 := by
  simp [newBitlist]

/-- Settles O31: the buffer becomes `newBitlist`, whose bits `getBit_newBitlist` gives. -/
theorem newBitlistHoldsOnlyItsSentinel : Obligations.NewBitlistHoldsOnlyItsSentinel := by
  intro s d a hfits
  obtain ⟨hcompletes, hframe⟩ := completes_and_changesOnlyBuf s d (newBitlist (s.readX a).toNat)
  refine ⟨_, exec_blNew_of_le s d a hfits, hcompletes, hframe, ?_, fun p => ?_⟩
  · rw [complete_readBuf, readBuf_writeBuf_self, length_newBitlist]
  · rw [complete_readBuf, readBuf_writeBuf_self, getBit_newBitlist]

/-- Settles O34: the length the sentinel gives fits the register, because a buffer has at most 1024 bytes. -/
theorem bitlistLengthIsSentinelPosition : Obligations.BitlistLengthIsSentinelPosition := by
  intro s d a hwf hmalformed
  have hlength := bitlistLength_blLen ((blWf_iff_not_malformed _).mpr hmalformed)
  obtain ⟨hcompletes, hframe⟩ := completes_and_changesOnlyX s d (zext64 (blLen (s.readBuf a)))
  refine ⟨_, exec_blLen_of_length hlength d, hcompletes, hframe, ?_⟩
  rwa [complete_readX, readX_writeX_self, toNat_zext64 (bitlistLength_lt hwf hlength)]

/-- Settles O37: the population count less the sentinel is the number of data bits, which fits the register. -/
theorem bitlistCountCountsDataBits : Obligations.BitlistCountCountsDataBits := by
  intro s d a n hwf hlength
  have hfits : bitsBelow (s.readBuf a) n < 2 ^ 64 := (bitsBelow_le _ n).trans_lt (bitlistLength_lt hwf hlength)
  obtain ⟨hcompletes, hframe⟩ := completes_and_changesOnlyX s d (zext64 (bitsBelow (s.readBuf a) n))
  refine ⟨_, exec_blCount_of_length hlength d, hcompletes, hframe, ?_⟩
  rw [complete_readX, readX_writeX_self, toNat_zext64 hfits]

/-! ### BL.BITAT and BL.SETBIT (40_bitlist.md R103, R104) -/

/-- Settles O35: BL.BITAT writes the truth value of "below the length and set". -/
theorem bitlistBitReadStopsAtSentinel : Obligations.BitlistBitReadStopsAtSentinel := by
  intro s d a b n hlength
  obtain ⟨hcompletes, hframe⟩ := completes_and_changesOnlyX s d
    (boolWord (decide ((s.readX b).toNat < n) && getBit (s.readBuf a) (s.readX b).toNat))
  refine ⟨_, exec_blBitat_of_length hlength d b, hcompletes, hframe, ?_⟩
  rw [complete_readX, readX_writeX_self, boolWord_eq]
  simp only [Bool.and_eq_true, decide_eq_true_eq]

/-- Settles O36: below the length one bit write, which keeps the sentinel; from the length on no write. -/
theorem bitlistBitWriteTouchesOneBit : Obligations.BitlistBitWriteTouchesOneBit := by
  intro s d a v n hlength
  rcases Nat.lt_or_ge (s.readX a).toNat n with hlt | hge
  case inl =>
    obtain ⟨hcompletes, hframe⟩ := completes_and_changesOnlyBuf s d (setBit (s.readBuf d) (s.readX a).toNat v)
    refine ⟨_, exec_blSetbit_of_lt_length hlength hlt v, hcompletes, hframe, ?_⟩
    rw [complete_readBuf, readBuf_writeBuf_self]
    refine ⟨length_setBit _ _ _, bitlistLength_setBit hlength hlt v, fun p => ?_⟩
    rw [getBit_setBit_of_lt hlength hlt]
    have hbelow : p = (s.readX a).toNat ∧ p < n ↔ p = (s.readX a).toNat := and_iff_left_of_imp (by omega)
    simp only [hbelow]
  case inr =>
    obtain ⟨hcompletes, hframe⟩ := completes_and_changesNothing s d
    refine ⟨_, exec_blSetbit_of_length_le hlength hge v, hcompletes, hframe, rfl, hlength, fun p => ?_⟩
    rw [if_neg (by omega), complete_readBuf]

/-! ### BL.BYTES (40_bitlist.md R106) -/

/-- A byte sequence is what `trimZeros` keeps of it, and zeros. -/
theorem trimZeros_append_replicate (bytes : List Byte) : ∃ k, bytes = trimZeros bytes ++ List.replicate k 0 := by
  have hzeros : bytes.reverse.takeWhile (· == 0) =
      List.replicate (bytes.reverse.takeWhile (· == 0)).length 0 :=
    List.eq_replicate_of_mem fun b hb => by simpa using List.mem_takeWhile_imp hb
  refine ⟨(bytes.reverse.takeWhile (· == 0)).length, List.reverse_injective ?_⟩
  rw [trimZeros, List.reverse_append, List.reverse_reverse, List.reverse_replicate, ← hzeros,
    List.takeWhile_append_dropWhile]

theorem length_trimZeros_le (bytes : List Byte) : (trimZeros bytes).length ≤ bytes.length := by
  obtain ⟨k, hk⟩ := trimZeros_append_replicate bytes
  conv_rhs => rw [hk]
  simp

theorem getBit_append_replicate_zero (bytes : List Byte) (k p : Nat) :
    getBit (bytes ++ List.replicate k 0) p = getBit bytes p := by
  rcases Nat.lt_or_ge (p / 8) bytes.length with hlt | hge
  · rw [getBit, getBit, List.getD_append _ _ _ _ hlt]
  · rw [getBit, List.getD_append_right _ _ _ _ hge, getBit_eq_false_of_length_le (by omega)]
    rw [List.getD_eq_getElem?_getD, List.getElem?_getD_replicate_default_eq]
    exact BitVec.getLsbD_zero

theorem getBit_trimZeros (bytes : List Byte) (p : Nat) : getBit (trimZeros bytes) p = getBit bytes p := by
  obtain ⟨k, hk⟩ := trimZeros_append_replicate bytes
  conv_rhs => rw [hk]
  rw [getBit_append_replicate_zero]

/-- What is left ends in a byte that is not 0, so it is the shortest sequence with these bits. -/
theorem not_malformed_trimZeros (bytes : List Byte) : ¬ malformed (trimZeros bytes) := by
  intro h
  rw [malformed, trimZeros, List.getLast?_reverse] at h
  have hhead := List.head?_dropWhile_not (· == (0 : Byte)) bytes.reverse
  rw [h] at hhead
  simp at hhead

theorem length_clearSentinel {bytes : List Byte} {n : Nat} (h : bitlistLength bytes n) :
    (clearSentinel bytes).length = bytes.length := by
  rw [clearSentinel_eq_setBit h, length_setBit]

/-- The bits below the length stay, and there is no bit left from the length on. -/
theorem getBit_clearSentinel {bytes : List Byte} {n : Nat} (h : bitlistLength bytes n) (p : Nat) :
    getBit (clearSentinel bytes) p = (decide (p < n) && getBit bytes p) := by
  rw [clearSentinel_eq_setBit h, getBit_setBit]
  rcases Nat.lt_trichotomy p n with hlt | rfl | hgt
  · rw [if_neg (by omega), decide_eq_true hlt, Bool.true_and]
  · split
    next => simp
    next hout => rw [getBit_eq_false_of_length_le (by omega), Bool.and_false]
  · rw [if_neg (by omega), getBit_of_length_lt h hgt, Bool.and_false]

/-- Settles O38: clearing the sentinel leaves the data bits, and trimming changes no bit. -/
theorem bitlistExportIsCanonical : Obligations.BitlistExportIsCanonical := by
  intro s d a n hlength
  obtain ⟨hcompletes, hframe⟩ := completes_and_changesOnlyBuf s d (trimZeros (clearSentinel (s.readBuf a)))
  refine ⟨_, exec_blBytes s d a (blWf_of_bitlistLength hlength), hcompletes, hframe, ?_⟩
  rw [complete_readBuf, readBuf_writeBuf_self]
  refine ⟨not_malformed_trimZeros _, ?_, fun p => ?_⟩
  · exact (length_trimZeros_le _).trans (length_clearSentinel hlength).le
  · rw [getBit_trimZeros, getBit_clearSentinel hlength]

/-! ### Laws 1 and 2 (40_bitlist.md section 3) -/

/-- Settles O39: law 1 of R108, in any state. -/
theorem newThenLengthReturnsN : Obligations.NewThenLengthReturnsN := fun _ d a e hfits => law_newThenLength d a e hfits

/-- Settles O40: the reading half of law 2 of R108, in any state. -/
theorem bitlistReadAfterWrite : Obligations.BitlistReadAfterWrite := by
  intro s d a e v n hlength hlt
  obtain ⟨t, u, hset, hread, hvalue, -⟩ := law_bitlistReadAfterWrite d a e v n hlength hlt
  exact ⟨t, u, hset, hread, hvalue⟩

end Sys2Proof.BitlistCommandProofs
end

section
/-! PROOFS. The bitvector commands one by one (41_bitvector.md section 2), and laws 2, 3 and 5 of its section 3. -/

namespace Sys2Proof.BitvectorCommandProofs

open Sys2Proof.Machine Sys2Proof.Laws Sys2Proof.ContainerProofs Sys2Proof.BitlistCommandProofs

/-! ### Widths (41_bitvector.md R120) -/

theorem byteWidth_eq (s : State) : s.byteWidth = (s.width + 7) / 8 := rfl

theorem byteWidth_lt (s : State) : s.byteWidth < 2 ^ 30 := by
  have := width_lt s
  rw [byteWidth_eq]
  omega

theorem seen_eq_take (s : State) (bytes : List Byte) : s.seen bytes = bytes.take (min bytes.length s.byteWidth) := rfl

/-- Every position a count or a listing sees fits a register. -/
theorem bits_seen_lt (s : State) (bytes : List Byte) : 8 * (s.seen bytes).length < 2 ^ 64 := by
  have := byteWidth_lt s
  rw [length_seen]
  omega

/-- The bits seen are those of the first min(|s|, B) bytes. -/
theorem getBit_seen (s : State) (bytes : List Byte) (p : Nat) :
    getBit (s.seen bytes) p = (decide (p < 8 * min bytes.length s.byteWidth) && getBit bytes p) :=
  getBit_take bytes _ p

theorem popcount_seen (s : State) (bytes : List Byte) :
    popcount (s.seen bytes) = bitsBelow bytes (8 * min bytes.length s.byteWidth) := by
  rw [popcount_eq_bitsBelow, length_seen]
  refine List.countP_congr fun p hp => ?_
  rw [getBit_seen, decide_eq_true (List.mem_range.mp hp), Bool.true_and]

theorem popcount_seen_lt (s : State) (bytes : List Byte) : popcount (s.seen bytes) < 2 ^ 64 := by
  rw [popcount_eq_bitsBelow]
  exact (bitsBelow_le _ _).trans_lt (bits_seen_lt s bytes)

/-! ### BV.NEW, BV.LEN, BV.COUNT, BV.BYTES (41_bitvector.md R121, R124 to R126) -/

/-- Settles O42: B zero bytes, and B is the number of bytes N bits take. -/
theorem newBitvectorIsZero : Obligations.NewBitvectorIsZero := by
  intro s d
  obtain ⟨hcompletes, hframe⟩ := completes_and_changesOnlyBuf s d (List.replicate s.byteWidth 0)
  refine ⟨_, exec_bvNew s d, hcompletes, hframe, ?_, fun p => ?_⟩
  · rw [complete_readBuf, readBuf_writeBuf_self, List.length_replicate, byteWidth_eq]
  · rw [complete_readBuf, readBuf_writeBuf_self, getBit_replicate_zero]

/-- Settles O43: N has 32 bits, so the register holds it whole. -/
theorem bitvectorLengthIsWidth : Obligations.BitvectorLengthIsWidth := by
  intro s d
  obtain ⟨hcompletes, hframe⟩ := completes_and_changesOnlyX s d (zext64 s.width)
  refine ⟨_, exec_bvLen s d, hcompletes, hframe, ?_⟩
  rw [complete_readX, readX_writeX_self, toNat_zext64 ((width_lt s).trans (by decide)), State.width]

/-- Settles O46: the population count of the bytes seen, which fits the register. -/
theorem bitvectorCountClampsToWidth : Obligations.BitvectorCountClampsToWidth := by
  intro s d a
  obtain ⟨hcompletes, hframe⟩ := completes_and_changesOnlyX s d (zext64 (popcount (s.seen (s.readBuf a))))
  refine ⟨_, exec_bvCount s d a, hcompletes, hframe, ?_⟩
  rw [complete_readX, readX_writeX_self, toNat_zext64 (popcount_seen_lt s _), popcount_seen]

/-- Settles O47: the bytes seen are the leading bytes, unchanged. -/
theorem bitvectorExportClampsToWidth : Obligations.BitvectorExportClampsToWidth := by
  intro s d a
  obtain ⟨hcompletes, hframe⟩ := completes_and_changesOnlyBuf s d (s.seen (s.readBuf a))
  refine ⟨_, exec_bvBytes s d a, hcompletes, hframe, ?_, fun i hi => ?_⟩
  · rw [complete_readBuf, readBuf_writeBuf_self, length_seen]
  · rw [bufByte_eq, bufByte_eq, complete_readBuf, readBuf_writeBuf_self, seen_eq_take, List.getD_eq_getElem?_getD,
      List.getElem?_take_of_lt hi, List.getD_eq_getElem?_getD]

/-! ### BV.BITAT and BV.SETBIT (41_bitvector.md R122, R123) -/

/-- Settles O44: BV.BITAT reads the bit exactly when it is accessible. -/
theorem bitvectorBitReadIsStrict : Obligations.BitvectorBitReadIsStrict := by
  intro s d a b
  obtain ⟨hcompletes, hframe⟩ := completes_and_changesOnlyX s d
    (if s.bitAccessible (s.readBuf a) (s.readX b).toNat then boolWord (getBit (s.readBuf a) (s.readX b).toNat) else 0)
  refine ⟨_, exec_bvBitat s d a b, hcompletes, hframe, ?_⟩
  simp only [complete_readX, readX_writeX_self, bitAccessible_iff, boolWord_eq, byteWidth_eq, ← ite_and, and_assoc]

/-- Settles O45: an accessible bit is written alone; otherwise nothing is. -/
theorem bitvectorBitWriteTouchesOneBit : Obligations.BitvectorBitWriteTouchesOneBit := by
  intro s d a v
  have haccess := bitAccessible_iff s (s.readBuf d) (s.readX a).toNat
  rw [byteWidth_eq] at haccess
  by_cases h : s.bitAccessible (s.readBuf d) (s.readX a).toNat = true
  case pos =>
    obtain ⟨hcompletes, hframe⟩ := completes_and_changesOnlyBuf s d (setBit (s.readBuf d) (s.readX a).toNat v)
    refine ⟨_, exec_bvSetbit_of_accessible h v, hcompletes, hframe, ?_⟩
    rw [complete_readBuf, readBuf_writeBuf_self]
    refine ⟨length_setBit _ _ _, fun p => ?_⟩
    rw [getBit_setBit_of_accessible h]
    have hbelow : p = (s.readX a).toNat ∧ p < s.width ∧ (s.readBuf d).length = (s.width + 7) / 8 ↔
        p = (s.readX a).toNat := and_iff_left_of_imp fun hp => hp ▸ haccess.mp h
    simp only [hbelow]
  case neg =>
    obtain ⟨hcompletes, hframe⟩ := completes_and_changesNothing s d
    refine ⟨_, by rw [exec_bvSetbit, if_neg h], hcompletes, hframe, rfl, fun p => ?_⟩
    have hout : ¬ (p = (s.readX a).toNat ∧ p < s.width ∧ (s.readBuf d).length = (s.width + 7) / 8) := by
      rintro ⟨rfl, hreach⟩
      exact h (haccess.mpr hreach)
    rw [if_neg hout, complete_readBuf]

/-- Settles O49: the reading half of law 2 of R129. -/
theorem bitvectorReadAfterWrite : Obligations.BitvectorReadAfterWrite := by
  intro s d a e v hlt hlen
  obtain ⟨t, u, hset, hread, hvalue, -⟩ := law_bitvectorReadAfterWrite d a e v ((addressable_iff s _).mpr hlen) hlt
  exact ⟨t, u, hset, hread, hvalue⟩

/-! ### BV.INDICES (41_bitvector.md R127) -/

theorem length_setPositions_seen_lt (s : State) (bytes : List Byte) : (setPositions (s.seen bytes)).length < 2 ^ 64 := by
  rw [← popcount_eq_length_setPositions]
  exact popcount_seen_lt s bytes

/-- Settles O48: the listing is `setPositions` of the bytes seen, whose entries and number fit a register. -/
theorem indicesListSetPositions : Obligations.IndicesListSetPositions := by
  intro s d a
  refine ⟨_, exec_bvIndices s d a, completes_complete s _ false rfl, changesOnlyListing_writeListing s d _ _ false,
    setPositions (s.seen (s.readBuf a)), pairwise_setPositions _, fun p => ?_, fun k => ?_, ?_, ?_⟩
  · rw [mem_setPositions, getBit_seen, Bool.and_eq_true, decide_eq_true_eq]
  · refine toNat_getD_map_zext64 (fun p hp => ?_) k
    exact (lt_length_of_getBit (mem_setPositions.mp hp)).trans (bits_seen_lt s _)
  · exact toNat_zext64 (length_setPositions_seen_lt s _)
  · rw [complete_readX, readX_writeX_self]
    rfl

/-- With no bit from N on, the set bits of the buffer are those below N. -/
theorem popcount_of_tailClean {s : State} {bytes : List Byte} (hlen : bytes.length = s.byteWidth)
    (hclean : s.tailClean bytes) : popcount bytes = bitsBelow bytes s.width := by
  obtain ⟨r, hr⟩ : ∃ r, 8 * bytes.length = s.width + r := Nat.exists_eq_add_of_le (hlen ▸ width_le s)
  have hrest : (List.range r).countP (fun j => getBit bytes (s.width + j)) = 0 :=
    List.countP_eq_zero.mpr fun j _ => by simp [hclean (s.width + j) (by omega)]
  rw [popcount_eq_bitsBelow, hr, bitsBelow, countP_range_add, hrest, Nat.add_zero, bitsBelow]

/-- Settles O50: count and listing number the same set positions, all of which lie below N. -/
theorem countAgreesWithListing : Obligations.CountAgreesWithListing := by
  intro s d e a hlen hclean
  have hcount := popcount_seen_lt s (s.readBuf a)
  have hseen := seen_of_addressable ((addressable_iff s _).mpr hlen)
  refine ⟨_, _, exec_bvCount s d a, exec_bvIndices s e a, ?_, ?_⟩
  · rw [complete_readX, readX_writeX_self, toNat_zext64 hcount, hseen, popcount_of_tailClean hlen hclean]
  · rw [complete_readX, readX_writeX_self, popcount_eq_length_setPositions]
    rfl

end Sys2Proof.BitvectorCommandProofs
end

section
/-! PROOFS. The set-algebra commands (42_bitvector_setalgebra.md sections 1 and 2), and laws 1 and 5 of its section 3. -/

namespace Sys2Proof.SetAlgebraCommandProofs

open Sys2Proof.Machine Sys2Proof.Laws Sys2Proof.ContainerProofs Sys2Proof.BitlistCommandProofs

/-- Settles O51: unequal lengths end the command before it computes anything. -/
theorem lengthMismatchWritesNoDestination : Obligations.LengthMismatchWritesNoDestination :=
  fun s i h => ⟨_, exec_of_mismatch s i h, completes_complete s s true rfl, changesNoData_complete s true⟩

/-! ### From bytes to bits -/

/-- The bits of a sequence, byte by byte: what holds of every bit of every byte holds of every position. -/
theorem forall_getBit_iff {P : Bool → Bool → Prop} (hpast : P false false) {a b : List Byte} (hlen : a.length = b.length) :
    (∀ p, P (getBit a p) (getBit b p)) ↔
      ∀ i, i < a.length → ∀ j, j < 8 → P ((a.getD i 0).getLsbD j) ((b.getD i 0).getLsbD j) := by
  constructor
  · intro h i _ j hj
    simpa only [getBit_byte _ _ _ hj] using h (8 * i + j)
  · intro h p
    rcases Nat.lt_or_ge (p / 8) a.length with hlt | hge
    · exact h (p / 8) hlt (p % 8) (Nat.mod_lt p (by decide))
    · rwa [getBit_eq_false_of_length_le (by omega), getBit_eq_false_of_length_le (by omega)]

/-- The pairs of bytes of two sequences of one length. -/
theorem forall_mem_zip_iff {P : Byte × Byte → Prop} {a b : List Byte} (hlen : a.length = b.length) :
    (∀ x ∈ a.zip b, P x) ↔ ∀ i, i < a.length → P (a.getD i 0, b.getD i 0) := by
  rw [List.forall_mem_iff_getElem]
  have hzip : (a.zip b).length = a.length := by simp [hlen]
  constructor
  · intro h i hi
    simpa [hi, hlen ▸ hi] using h i (hzip ▸ hi)
  · intro h i hi
    have hi' : i < a.length := hzip ▸ hi
    simpa [hi', hlen ▸ hi'] using h i hi'

/-- One byte contains another when it has its bits. -/
theorem and_eq_right_iff_getLsbD (x y : Byte) :
    x &&& y = y ↔ ∀ j, j < 8 → y.getLsbD j = true → x.getLsbD j = true := by
  constructor
  · intro h j _ hy
    rw [← h, BitVec.getLsbD_and] at hy
    exact (Bool.and_eq_true_iff.mp hy).1
  · intro h
    apply BitVec.eq_of_getLsbD_eq
    intro j hj
    rw [BitVec.getLsbD_and, Bool.and_eq_right_iff_imp]
    exact h j hj

/-- Two bytes are disjoint when they share no bit. -/
theorem and_eq_zero_iff_getLsbD (x y : Byte) :
    x &&& y = 0 ↔ ∀ j, j < 8 → ¬ (x.getLsbD j = true ∧ y.getLsbD j = true) := by
  constructor
  · intro h j _
    rw [← Bool.and_eq_true_iff, ← BitVec.getLsbD_and, h]
    simp
  · intro h
    apply BitVec.eq_of_getLsbD_eq
    intro j hj
    rw [BitVec.getLsbD_and, BitVec.ofNat_eq_ofNat, BitVec.getLsbD_zero, ← Bool.not_eq_true, Bool.and_eq_true_iff]
    exact h j hj

/-! ### BV.CONTAINS and BV.OVERLAPS (42_bitvector_setalgebra.md R141, R142) -/

theorem bytesContain_iff {a b : List Byte} (hlen : a.length = b.length) :
    bytesContain a b = true ↔ ∀ p, getBit b p = true → getBit a p = true := by
  rw [forall_getBit_iff (P := fun x y => y = true → x = true) id hlen]
  simp only [bytesContain, List.all_eq_true, beq_iff_eq, ← and_eq_right_iff_getLsbD]
  exact forall_mem_zip_iff (P := fun x => x.1 &&& x.2 = x.2) hlen

theorem bytesOverlap_eq_false_iff {a b : List Byte} (hlen : a.length = b.length) :
    bytesOverlap a b = false ↔ ∀ p, ¬ (getBit a p = true ∧ getBit b p = true) := by
  rw [forall_getBit_iff (P := fun x y => ¬ (x = true ∧ y = true)) (by simp) hlen]
  simp only [bytesOverlap, List.any_eq_false, bne_iff_ne, ne_eq, not_not, ← and_eq_zero_iff_getLsbD]
  exact forall_mem_zip_iff (P := fun x => x.1 &&& x.2 = 0) hlen

theorem bytesOverlap_iff {a b : List Byte} (hlen : a.length = b.length) :
    bytesOverlap a b = true ↔ ∃ p, getBit a p = true ∧ getBit b p = true := by
  rw [← Bool.not_eq_false, bytesOverlap_eq_false_iff hlen, not_forall_not]

/-- The word a command writes for a truth value. -/
theorem boolWord_of_iff {c : Bool} {P : Prop} (h : c = true ↔ P) : (P → boolWord c = 1) ∧ (¬ P → boolWord c = 0) := by
  refine ⟨fun hp => (boolWord_eq_one_iff c).mpr (h.mpr hp), fun hp => ?_⟩
  rw [boolWord_eq, if_neg (fun hc => hp (h.mp hc))]

/-- Settles O52: containment byte by byte is containment bit by bit. -/
theorem containsIsBitwiseSuperset : Obligations.ContainsIsBitwiseSuperset := by
  intro s d a b hlen
  obtain ⟨hcompletes, hframe⟩ := completes_and_changesOnlyX s d (boolWord (bytesContain (s.readBuf a) (s.readBuf b)))
  refine ⟨_, exec_bvContains s d a b hlen, hcompletes, hframe, ?_⟩
  rw [complete_readX, readX_writeX_self]
  exact boolWord_of_iff (bytesContain_iff hlen)

/-- Settles O53: an overlap in some byte is a common bit. -/
theorem overlapsIsCommonSetBit : Obligations.OverlapsIsCommonSetBit := by
  intro s d a b hlen
  obtain ⟨hcompletes, hframe⟩ := completes_and_changesOnlyX s d (boolWord (bytesOverlap (s.readBuf a) (s.readBuf b)))
  refine ⟨_, exec_bvOverlaps s d a b hlen, hcompletes, hframe, ?_⟩
  rw [complete_readX, readX_writeX_self]
  exact boolWord_of_iff (bytesOverlap_iff hlen)

/-! ### BV.OR (42_bitvector_setalgebra.md R143) -/

theorem length_bytesOr {a b : List Byte} (hlen : a.length = b.length) : (bytesOr a b).length = a.length := by
  simp [bytesOr, hlen]

theorem getBit_bytesOr {a b : List Byte} (hlen : a.length = b.length) (p : Nat) :
    getBit (bytesOr a b) p = (getBit a p || getBit b p) := by
  rcases Nat.lt_or_ge (p / 8) a.length with hlt | hge
  · have hbyte : (bytesOr a b).getD (p / 8) 0 = a.getD (p / 8) 0 ||| b.getD (p / 8) 0 := by
      simp [bytesOr, hlt, hlen ▸ hlt]
    rw [getBit, hbyte, BitVec.getLsbD_or, getBit, getBit]
  · have hor := length_bytesOr hlen
    rw [getBit_eq_false_of_length_le (by omega), getBit_eq_false_of_length_le (s := a) (by omega),
      getBit_eq_false_of_length_le (s := b) (by omega), Bool.or_false]

/-- Settles O54: the union byte by byte is the union bit by bit. -/
theorem orIsBitwiseUnion : Obligations.OrIsBitwiseUnion := by
  intro s d a b hlen
  obtain ⟨hcompletes, hframe⟩ := completes_and_changesOnlyBuf s d (bytesOr (s.readBuf a) (s.readBuf b))
  refine ⟨_, exec_bvOr s d a b hlen, hcompletes, hframe, ?_⟩
  rw [complete_readBuf, readBuf_writeBuf_self]
  exact ⟨length_bytesOr hlen, getBit_bytesOr hlen⟩

/-! ### Laws 1 and 5 (42_bitvector_setalgebra.md section 3) -/

/-- One sequence contains another exactly when their union adds nothing to it. -/
theorem bytesContain_iff_bytesOr_eq {a b : List Byte} (hlen : a.length = b.length) :
    bytesContain a b = true ↔ bytesOr a b = a := by
  rw [bytesContain_iff hlen]
  constructor
  · intro h
    refine bytes_eq_of_getBit (length_bytesOr hlen) fun p => ?_
    rw [getBit_bytesOr hlen, Bool.or_eq_left_iff_imp]
    exact h p
  · intro h p hp
    rw [← h, getBit_bytesOr hlen, hp, Bool.or_true]

theorem bytesContain_bytesOr_left {a b : List Byte} (hlen : a.length = b.length) : bytesContain (bytesOr a b) a = true := by
  rw [bytesContain_iff (length_bytesOr hlen)]
  intro p hp
  rw [getBit_bytesOr hlen, hp, Bool.true_or]

theorem bytesContain_bytesOr_right {a b : List Byte} (hlen : a.length = b.length) :
    bytesContain (bytesOr a b) b = true := by
  rw [bytesContain_iff ((length_bytesOr hlen).trans hlen)]
  intro p hp
  rw [getBit_bytesOr hlen, hp, Bool.or_true]

/-- BV.CONTAINS answers 1 when the first buffer contains the second. -/
theorem exec_bvContains_eq_one {s : State} {a b : BReg} (d : XReg) (hlen : (s.readBuf a).length = (s.readBuf b).length)
    (h : bytesContain (s.readBuf a) (s.readBuf b) = true) :
    ∃ t, exec (.bvContains d a b) s = .next t ∧ t.readX d = 1 := by
  refine ⟨_, exec_bvContains s d a b hlen, ?_⟩
  rw [complete_readX, readX_writeX_self, h, boolWord_eq, if_pos rfl]

/-- BV.OR into a third buffer leaves the union there and both operands as they were. -/
theorem exec_bvOr_of_ne {s : State} {a b c : BReg} (hlen : (s.readBuf a).length = (s.readBuf b).length) (hca : c ≠ a)
    (hcb : c ≠ b) :
    ∃ u, exec (.bvOr c a b) s = .next u ∧ u.readBuf c = bytesOr (s.readBuf a) (s.readBuf b) ∧
      u.readBuf a = s.readBuf a ∧ u.readBuf b = s.readBuf b :=
  ⟨_, exec_bvOr s c a b hlen, readBuf_writeBuf_self s c _, readBuf_writeBuf_of_ne s hca.symm _,
    readBuf_writeBuf_of_ne s hcb.symm _⟩

/-- Settles O55: containment is absorption in the union, and the union stands in a third buffer, so both operands are there to
compare it with. -/
theorem containsMeansUnionIsSelf : Obligations.ContainsMeansUnionIsSelf := by
  intro s d e f c a b hlen hca hcb
  obtain ⟨u, hu, hc, ha, hb⟩ := exec_bvOr_of_ne hlen hca hcb
  have hor := length_bytesOr hlen
  obtain ⟨v, hv, hve⟩ := exec_bvContains_eq_one (s := u) (a := c) (b := a) e (by rw [hc, ha, hor])
    (by rw [hc, ha, bytesContain_bytesOr_left hlen])
  obtain ⟨w, hw, hwf⟩ := exec_bvContains_eq_one (s := u) (a := c) (b := b) f (by rw [hc, hb, hor, hlen])
    (by rw [hc, hb, bytesContain_bytesOr_right hlen])
  refine ⟨_, u, v, w, exec_bvContains s d a b hlen, hu, ?_, hv, hve, hw, hwf⟩
  rw [complete_readX, readX_writeX_self, boolWord_eq_one_iff, hc, bytesContain_iff_bytesOr_eq hlen]

end Sys2Proof.SetAlgebraCommandProofs
end

section
/-! PROOFS. BV.SHIFT (42_bitvector_setalgebra.md R144 to R147), and laws 7 and 8 of section 3. -/

namespace Sys2Proof.ShiftProofs

open Sys2Proof.Machine Sys2Proof.Laws Sys2Proof.ContainerProofs Sys2Proof.BitlistCommandProofs
open Sys2Proof.BitvectorCommandProofs

/-! ### Places in the shifted value (42_bitvector_setalgebra.md R145, R146) -/

theorem valuePosition_lt {len p : Nat} (order : ShiftOrder) (hp : p < 8 * len) : valuePosition order len p < 8 * len := by
  cases order <;> simp only [valuePosition] <;> omega

/-- Counting the bytes from the other end twice is counting them as they stand. -/
theorem valuePosition_valuePosition {len p : Nat} (order : ShiftOrder) (hp : p < 8 * len) :
    valuePosition order len (valuePosition order len p) = p := by
  cases order <;> simp only [valuePosition]
  omega

theorem valuePosition_inj {len p q : Nat} {order : ShiftOrder} (hp : p < 8 * len) (hq : q < 8 * len)
    (h : valuePosition order len p = valuePosition order len q) : p = q := by
  rw [← valuePosition_valuePosition order hp, h, valuePosition_valuePosition order hq]

/-! ### The value of a sequence -/

/-- In LE order bit p of the value is the bit at position p. -/
theorem testBit_valLe (bytes : List Byte) (p : Nat) : (valLe bytes).testBit p = getBit bytes p := by
  induction bytes generalizing p with
  | nil => simp [valLe, getBit]
  | cons b rest ih =>
    rw [valLe, Nat.add_comm, Nat.testBit_two_pow_mul_add _ b.isLt]
    split
    case isTrue hp =>
      have hdiv : p / 8 = 0 := by omega
      have hmod : p % 8 = p := by omega
      rw [getBit, hdiv, hmod, List.getD_cons_zero, BitVec.testBit_toNat]
    case isFalse hp =>
      have hdiv : p / 8 = (p - 8) / 8 + 1 := by omega
      have hmod : p % 8 = (p - 8) % 8 := by omega
      rw [ih, getBit, getBit, hdiv, hmod, List.getD_cons_succ]

theorem valLe_append_singleton (bytes : List Byte) (b : Byte) :
    valLe (bytes ++ [b]) = valLe bytes + 2 ^ (8 * bytes.length) * b.toNat := by
  induction bytes with
  | nil => simp [valLe]
  | cons c rest ih =>
    rw [List.cons_append, valLe, valLe, ih, List.length_cons, Nat.mul_add 8, Nat.pow_add]
    ring

/-- The BE value is the LE value of the bytes taken from the other end. -/
theorem valBe_eq_valLe_reverse (bytes : List Byte) : valBe bytes = valLe bytes.reverse := by
  induction bytes with
  | nil => rfl
  | cons b rest ih =>
    rw [valBe, List.reverse_cons, valLe_append_singleton, ih, List.length_reverse]
    ring

theorem getBit_reverse {bytes : List Byte} {p : Nat} (hp : p < 8 * bytes.length) :
    getBit bytes.reverse (valuePosition .be bytes.length p) = getBit bytes p := by
  have hdiv : valuePosition .be bytes.length p / 8 = bytes.length - 1 - p / 8 := by simp only [valuePosition]; omega
  have hmod : valuePosition .be bytes.length p % 8 = p % 8 := by simp only [valuePosition]; omega
  have hbyte : bytes.length - 1 - (bytes.length - 1 - p / 8) = p / 8 := by omega
  rw [getBit, hdiv, hmod, getBit, List.getD_eq_getElem?_getD, List.getElem?_reverse (by omega), hbyte,
    List.getD_eq_getElem?_getD]

/-- The bit at position p stands at p's place in the value. -/
theorem testBit_shiftVal {bytes : List Byte} {p : Nat} (order : ShiftOrder) (hp : p < 8 * bytes.length) :
    (shiftVal order bytes).testBit (valuePosition order bytes.length p) = getBit bytes p := by
  cases order with
  | le => exact testBit_valLe bytes p
  | be => rw [shiftVal, valBe_eq_valLe_reverse, testBit_valLe, getBit_reverse hp]

/-- The value has no bit past its 8L. -/
theorem testBit_shiftVal_of_le {bytes : List Byte} {i : Nat} (order : ShiftOrder) (hi : 8 * bytes.length ≤ i) :
    (shiftVal order bytes).testBit i = false := by
  cases order with
  | le => rw [shiftVal, testBit_valLe, getBit_eq_false_of_length_le hi]
  | be => rw [shiftVal, valBe_eq_valLe_reverse, testBit_valLe, getBit_eq_false_of_length_le (by simpa using hi)]

/-! ### The sequence of a value -/

@[simp] theorem length_shiftUnval (order : ShiftOrder) (v len : Nat) : (shiftUnval order v len).length = len := by
  simp [shiftUnval]

theorem getLsbD_ofNat_shiftRight (v k : Nat) {j : Nat} (hj : j < 8) :
    (BitVec.ofNat 8 (v >>> k)).getLsbD j = v.testBit (k + j) := by
  rw [BitVec.getLsbD_ofNat, decide_eq_true hj, Bool.true_and, Nat.testBit_shiftRight]

/-- Bit p of the sequence is the value's bit at p's place. -/
theorem getBit_shiftUnval {len p : Nat} (order : ShiftOrder) (v : Nat) (hp : p < 8 * len) :
    getBit (shiftUnval order v len) p = v.testBit (valuePosition order len p) := by
  have hdiv : p / 8 < len := by omega
  have hmod : p % 8 < 8 := Nat.mod_lt p (by decide)
  rw [getBit, shiftUnval, List.getD_eq_getElem?_getD, List.getElem?_map, List.getElem?_range hdiv]
  cases order with
  | le =>
    have hplace : 8 * (p / 8) + p % 8 = p := Nat.div_add_mod p 8
    exact (getLsbD_ofNat_shiftRight v _ hmod).trans (by rw [hplace, valuePosition])
  | be => exact getLsbD_ofNat_shiftRight v _ hmod

/-! ### The shift of a value -/

/-- Bit i of the shifted value is the bit n below it, when there is one. -/
theorem testBit_shiftValue {v len i : Nat} (n : Int) (hv : ∀ j, 8 * len ≤ j → v.testBit j = false) (hi : i < 8 * len) :
    (shiftValue v len n).testBit i = true ↔ ∃ j, j < 8 * len ∧ (j : Int) + n = i ∧ v.testBit j = true := by
  have hbelow {j : Nat} (hj : v.testBit j = true) : j < 8 * len := by
    by_contra hge
    simp [hv j (Nat.not_lt.mp hge)] at hj
  unfold shiftValue
  split
  case isTrue hout =>
    rw [Nat.zero_testBit]
    constructor
    · intro h
      simp at h
    · rintro ⟨j, hj, hplace, -⟩
      omega
  split
  case isTrue hleft =>
    rw [Nat.testBit_mod_two_pow, decide_eq_true hi, Bool.true_and, Nat.testBit_mul_two_pow, Bool.and_eq_true,
      decide_eq_true_eq]
    constructor
    · rintro ⟨hle, hbit⟩
      exact ⟨i - n.natAbs, hbelow hbit, by omega, hbit⟩
    · rintro ⟨j, hj, hplace, hbit⟩
      obtain rfl : j = i - n.natAbs := by omega
      exact ⟨by omega, hbit⟩
  case isFalse hright =>
    rw [← Nat.shiftRight_eq_div_pow, Nat.testBit_shiftRight]
    constructor
    · intro hbit
      exact ⟨n.natAbs + i, hbelow hbit, by omega, hbit⟩
    · rintro ⟨j, hj, hplace, hbit⟩
      obtain rfl : j = n.natAbs + i := by omega
      exact hbit

/-! ### The shifted sequence -/

/-- The bit that BV.SHIFT moves to position p: some set position whose place lies n below p's. -/
def shiftedFrom (order : ShiftOrder) (bytes : List Byte) (n : Int) (p : Nat) : Prop :=
  ∃ q, q < 8 * bytes.length ∧
    (valuePosition order bytes.length q : Int) + n = valuePosition order bytes.length p ∧ getBit bytes q = true

@[simp] theorem length_shiftBytes (order : ShiftOrder) (bytes : List Byte) (n : Int) :
    (shiftBytes order bytes n).length = bytes.length := by
  simp [shiftBytes]

/-- Before the tail clear (42_bitvector_setalgebra.md R144). -/
theorem getBit_shiftBytes {bytes : List Byte} {p : Nat} (order : ShiftOrder) (n : Int) (hp : p < 8 * bytes.length) :
    getBit (shiftBytes order bytes n) p = true ↔ shiftedFrom order bytes n p := by
  rw [shiftBytes, getBit_shiftUnval order _ hp,
    testBit_shiftValue n (fun j hj => testBit_shiftVal_of_le order hj) (valuePosition_lt order hp)]
  constructor
  · rintro ⟨j, hj, hplace, hbit⟩
    have hback := valuePosition_valuePosition order hj
    refine ⟨valuePosition order bytes.length j, valuePosition_lt order hj, by rwa [hback], ?_⟩
    rwa [← testBit_shiftVal order (valuePosition_lt order hj), hback]
  · rintro ⟨q, hq, hplace, hbit⟩
    exact ⟨_, valuePosition_lt order hq, hplace, by rwa [testBit_shiftVal order hq]⟩

/-! ### The tail clear (42_bitvector_setalgebra.md R147) -/

@[simp] theorem length_tailClear (s : State) (bytes : List Byte) : (s.tailClear bytes).length = bytes.length := by
  unfold State.tailClear
  split <;> simp

theorem tailClear_of_no_tail {s : State} (h : s.width % 8 = 0) (bytes : List Byte) : s.tailClear bytes = bytes :=
  if_neg fun hc => hc.2 h

/-- The mask of the tail clear keeps the low bits of a byte. -/
theorem getLsbD_tailMask : ∀ k, k < 8 → ∀ j, j < 8 → ((1#8 <<< k) - 1).getLsbD j = decide (j < k) := by decide

/-- In a buffer of B bytes the bits from N on are cleared; every other bit stays. -/
theorem getBit_tailClear (s : State) (bytes : List Byte) {p : Nat} (hp : p < 8 * bytes.length) :
    getBit (s.tailClear bytes) p = true ↔ (bytes.length = s.byteWidth → p < s.width) ∧ getBit bytes p = true := by
  have hwidth := byteWidth_eq s
  unfold State.tailClear
  split
  case isTrue htail =>
    obtain ⟨hlen, hrem⟩ := htail
    simp only [hlen, forall_const]
    by_cases hlast : p / 8 = s.byteWidth - 1
    case pos =>
      have hbyte : (bytes.set (s.byteWidth - 1)
          (bytes.getD (s.byteWidth - 1) 0 &&& ((1#8 <<< (s.width % 8)) - 1))).getD (p / 8) 0 =
          bytes.getD (p / 8) 0 &&& ((1#8 <<< (s.width % 8)) - 1) := by
        rw [hlast, List.getD_eq_getElem?_getD, List.getElem?_set_self (by omega), Option.getD_some]
      have htail : p % 8 < s.width % 8 ↔ p < s.width := by omega
      rw [getBit, hbyte, BitVec.getLsbD_and, getLsbD_tailMask _ (by omega) _ (by omega), Bool.and_eq_true,
        decide_eq_true_eq, htail, and_comm, getBit]
    case neg =>
      have hlt : p < s.width := by omega
      rw [getBit, List.getD_eq_getElem?_getD, List.getElem?_set_ne (Ne.symm hlast), ← List.getD_eq_getElem?_getD, ← getBit]
      simp [hlt]
  case isFalse hno =>
    have hkept : bytes.length = s.byteWidth → p < s.width := by
      intro hlen
      have hrem : s.width % 8 = 0 := by
        by_contra hrem
        exact hno ⟨hlen, hrem⟩
      omega
    exact (and_iff_right hkept).symm

/-! ### BV.SHIFT -/

/-- What BV.SHIFT leaves in its buffer. -/
def shifted (s : State) (bytes : List Byte) (n : Int) : List Byte :=
  s.tailClear (shiftBytes s.build.shiftOrder bytes n)

@[simp] theorem length_shifted (s : State) (bytes : List Byte) (n : Int) : (shifted s bytes n).length = bytes.length := by
  simp [shifted]

theorem getBit_shifted (s : State) {bytes : List Byte} {p : Nat} (n : Int) (hp : p < 8 * bytes.length) :
    getBit (shifted s bytes n) p = true ↔
      (bytes.length = s.byteWidth → p < s.width) ∧ shiftedFrom s.build.shiftOrder bytes n p := by
  rw [shifted, getBit_tailClear s _ (by simpa using hp), length_shiftBytes, getBit_shiftBytes _ n hp]

/-- BV.SHIFT of any buffer, the empty one included, leaves `shifted` in it and changes nothing else. -/
theorem exec_bvShift_shifted (s : State) (d : BReg) (a : XReg) :
    ∃ t, exec (.bvShift d a) s = .next t ∧ completes false s t ∧ changesOnlyBuf d s t ∧
      t.readBuf d = shifted s (s.readBuf d) (s.readX a).toInt := by
  by_cases hempty : (s.readBuf d).length = 0
  case pos =>
    obtain ⟨hcompletes, hframe⟩ := completes_and_changesNothing s d
    refine ⟨_, by rw [exec_bvShift, if_pos hempty], hcompletes, hframe, ?_⟩
    have hshifted := (length_shifted s (s.readBuf d) (s.readX a).toInt).trans hempty
    rw [complete_readBuf, List.length_eq_zero_iff.mp hshifted, List.length_eq_zero_iff.mp hempty]
  case neg =>
    obtain ⟨hcompletes, hframe⟩ := completes_and_changesOnlyBuf s d (shifted s (s.readBuf d) (s.readX a).toInt)
    refine ⟨_, by rw [exec_bvShift, if_neg hempty, sint64]; rfl, hcompletes, hframe, ?_⟩
    rw [complete_readBuf, readBuf_writeBuf_self]

/-- Settles O56: bit by bit, through the value, the shift and the tail clear. -/
theorem shiftMovesBitsByAmount : Obligations.ShiftMovesBitsByAmount := by
  intro s d a len place
  obtain ⟨t, hexec, hcompletes, hframe, hbuf⟩ := exec_bvShift_shifted s d a
  refine ⟨t, hexec, hcompletes, hframe, by rw [hbuf, length_shifted], fun p hp => ?_⟩
  rw [hbuf]
  exact getBit_shifted s _ hp

/-! ### Law 7 (42_bitvector_setalgebra.md section 3) -/

theorem shifted_of_no_tail {s : State} (h : s.width % 8 = 0) (bytes : List Byte) (n : Int) :
    shifted s bytes n = shiftBytes s.build.shiftOrder bytes n :=
  tailClear_of_no_tail h _

/-- Shifts by amounts of one sign lose no bit in between, because the place passed lies between the first and the last. -/
theorem shiftBytes_shiftBytes {m n : Int} (order : ShiftOrder) (bytes : List Byte)
    (hsign : 0 ≤ m ∧ 0 ≤ n ∨ m ≤ 0 ∧ n ≤ 0) :
    shiftBytes order (shiftBytes order bytes m) n = shiftBytes order bytes (m + n) := by
  refine bytes_eq_of_getBit (by simp) fun p => ?_
  rcases Nat.lt_or_ge p (8 * bytes.length) with hp | hp
  case inr => rw [getBit_eq_false_of_length_le (by simpa using hp), getBit_eq_false_of_length_le (by simpa using hp)]
  rw [Bool.eq_iff_iff, getBit_shiftBytes order n (by simpa using hp), getBit_shiftBytes order _ hp]
  simp only [shiftedFrom, length_shiftBytes]
  constructor
  · rintro ⟨q, hq, hplace, hbit⟩
    obtain ⟨r, hr, hplace', hbit'⟩ := (getBit_shiftBytes order m hq).mp hbit
    exact ⟨r, hr, by omega, hbit'⟩
  · rintro ⟨r, hr, hplace, hbit⟩
    have hfirst := valuePosition_lt order hr
    have hlast := valuePosition_lt order hp
    obtain ⟨i, hi⟩ : ∃ i : Nat, (i : Int) = valuePosition order bytes.length r + m :=
      ⟨_, Int.toNat_of_nonneg (by omega)⟩
    have hlt : i < 8 * bytes.length := by omega
    have hback := valuePosition_valuePosition order hlt
    refine ⟨valuePosition order bytes.length i, valuePosition_lt order hlt, by omega, ?_⟩
    rw [getBit_shiftBytes order m (valuePosition_lt order hlt)]
    exact ⟨r, hr, by omega, hbit⟩

/-- Settles O57: the second shift runs in the same width and build, and with no tail nothing is cleared. -/
theorem shiftsOfOneSignCompose : Obligations.ShiftsOfOneSignCompose := by
  intro s d a b c _ hno hsign hsum
  obtain ⟨t, ht, -, ⟨hx, -, -, hbuild, hvn, -⟩, hbuf⟩ := exec_bvShift_shifted s d a
  obtain ⟨u, hu, -, -, hubuf⟩ := exec_bvShift_shifted t d b
  obtain ⟨v, hv, -, -, hvbuf⟩ := exec_bvShift_shifted s d c
  refine ⟨t, u, v, ht, hu, hv, ?_⟩
  have hno' : t.width % 8 = 0 := by rw [State.width, hvn]; exact hno
  rw [hubuf, hvbuf, hbuf, shifted_of_no_tail hno', shifted_of_no_tail hno, shifted_of_no_tail hno, hbuild, hx b, hsum,
    shiftBytes_shiftBytes _ _ hsign]

/-! ### Law 8 (42_bitvector_setalgebra.md section 3) -/

/-- Every set position after the shift comes from a set position before it. -/
theorem shiftedFrom_of_mem {s : State} {bytes : List Byte} {n : Int} {p : Nat}
    (h : p ∈ setPositions (shifted s bytes n)) :
    p < 8 * bytes.length ∧ shiftedFrom s.build.shiftOrder bytes n p := by
  rw [mem_setPositions] at h
  have hlt : p < 8 * bytes.length := by simpa using lt_length_of_getBit h
  obtain ⟨-, hfrom⟩ := (getBit_shifted s n hlt).mp h
  exact ⟨hlt, hfrom⟩

/-- No two set positions come from one, so there are at most as many as before. -/
theorem popcount_shifted_le (s : State) (bytes : List Byte) (n : Int) : popcount (shifted s bytes n) ≤ popcount bytes := by
  choose! hlt source hsource using fun p => shiftedFrom_of_mem (s := s) (bytes := bytes) (n := n) (p := p)
  have hinj : ∀ p ∈ setPositions (shifted s bytes n), ∀ q ∈ setPositions (shifted s bytes n),
      source p = source q → p = q := by
    intro p hp q hq heq
    obtain ⟨-, hplace, -⟩ := hsource p hp
    obtain ⟨-, hplace', -⟩ := hsource q hq
    rw [heq] at hplace
    exact valuePosition_inj (order := s.build.shiftOrder) (hlt p hp) (hlt q hq) (by omega)
  rw [popcount_eq_length_setPositions, popcount_eq_length_setPositions, ← List.length_map (f := source)]
  refine (List.Nodup.subperm ?_ ?_).length_le
  · exact List.Nodup.map_on hinj ((pairwise_setPositions _).imp Nat.ne_of_lt)
  · intro q hq
    obtain ⟨p, hp, rfl⟩ := List.mem_map.mp hq
    obtain ⟨-, -, hbit⟩ := hsource p hp
    exact mem_setPositions.mpr hbit

/-- Settles O58: at most B bytes are all seen by BV.COUNT, before the shift and after it. -/
theorem shiftNeverRaisesCount : Obligations.ShiftNeverRaisesCount := by
  intro s d a e hlen
  obtain ⟨u, hu, -, ⟨-, -, -, -, hvn, -⟩, hbuf⟩ := exec_bvShift_shifted s d a
  refine ⟨_, u, _, exec_bvCount s e d, hu, exec_bvCount u e d, ?_⟩
  have hwidth : u.byteWidth = s.byteWidth := by rw [State.byteWidth, State.width, hvn]; rfl
  have hseen : s.seen (s.readBuf d) = s.readBuf d := by rw [seen_eq_take, Nat.min_eq_left hlen, List.take_length]
  have hseen' : u.seen (u.readBuf d) = u.readBuf d := by
    rw [seen_eq_take, Nat.min_eq_left, List.take_length]
    rwa [hbuf, length_shifted, hwidth]
  simp only [complete_readX, readX_writeX_self]
  rw [toNat_zext64 (popcount_seen_lt u _), toNat_zext64 (popcount_seen_lt s _), hseen, hseen', hbuf]
  exact popcount_shifted_le s _ _

end Sys2Proof.ShiftProofs
end

section
/-! PROOFS. The invariant of the unit (10_state.md section 9): it holds after reset, and every step keeps it. -/

namespace Sys2Proof.InvariantProofs

open Sys2Proof.Machine Sys2Proof.Laws Sys2Proof.StateProofs Sys2Proof.EncodingProofs Sys2Proof.BitlistProofs
open Sys2Proof.ContainerProofs Sys2Proof.SetAlgebraProofs Sys2Proof.StepProofs Sys2Proof.BitlistCommandProofs
open Sys2Proof.BitvectorCommandProofs Sys2Proof.SetAlgebraCommandProofs Sys2Proof.ShiftProofs

theorem inv_iff (s : State) :
    s.inv = true ↔ Memory.wf s = true ∧ s.widthLegal = true ∧ s.faultRecordWf = true := by
  rw [State.inv, Bool.and_eq_true, Bool.and_eq_true, and_assoc]

theorem length_readBuf_le_maxb {s : State} (h : Memory.wf s = true) (b : BReg) : (s.readBuf b).length ≤ s.build.maxb := by
  obtain ⟨hbuf, -, -⟩ := (Memory_wf_iff s).mp h
  exact hbuf b

/-- A bitvector of a legal width fits a buffer. -/
theorem byteWidth_le_maxb {s : State} (h : s.widthLegal = true) : s.byteWidth ≤ s.build.maxb := by
  obtain ⟨-, hwidth⟩ := (widthLegal_iff s).mp h
  rw [byteWidth_eq]
  omega

/-! ### Commands keep the memories canonical (10_state.md R21, R24) -/

/-- The command's answer has canonical memories. -/
def keepsMemory (i : Instr) (s : State) : Prop := ∃ t, exec i s = .next t ∧ Memory.wf t = true

section Answers

variable {i : Instr} {s : State} (hwf : Memory.wf s = true)
include hwf

theorem keepsMemory_of_nothing {m : Bool} (h : exec i s = .next (s.complete m)) : keepsMemory i s :=
  ⟨_, h, Memory_wf_complete hwf m⟩

theorem keepsMemory_of_fault {c : FaultCause} {w : Word} (h : exec i s = .next (s.enterFault c w)) : keepsMemory i s :=
  ⟨_, h, Memory_wf_enterFault hwf c w⟩

theorem keepsMemory_of_writeX {d : XReg} {v : Word} (h : exec i s = .next ((s.writeX d v).complete false)) :
    keepsMemory i s :=
  ⟨_, h, Memory_wf_complete (Memory_wf_writeX hwf d v) false⟩

theorem keepsMemory_of_writeBuf {d : BReg} {bytes : List Byte}
    (h : exec i s = .next ((s.writeBuf d bytes).complete false)) (hlen : bytes.length ≤ s.build.maxb) : keepsMemory i s :=
  ⟨_, h, Memory_wf_complete (Memory_wf_writeBuf hwf d hlen) false⟩

/-- A malformed bitlist operand ends in a fault, so only a well-formed one is in question. -/
theorem keepsMemory_of_wf {b : BReg} (hi : bitlistOperand i = some b)
    (h : blWf (s.readBuf b) = true → keepsMemory i s) : keepsMemory i s := by
  by_cases hmalformed : malformed (s.readBuf b)
  · exact keepsMemory_of_fault hwf (exec_of_malformed_operand s hi hmalformed)
  · exact h ((blWf_iff_not_malformed _).mpr hmalformed)

/-- Operands of different lengths leave every memory, so only operands of the same length are in question. -/
theorem keepsMemory_of_match (h : operandsMismatch s i = false → keepsMemory i s) : keepsMemory i s := by
  cases hmismatch : operandsMismatch s i with
  | true => exact keepsMemory_of_nothing hwf (exec_of_mismatch s i hmismatch)
  | false => exact h hmismatch

end Answers

/-- BL.NEW raises CAPACITY for a length whose sentinel would lie past MAXB bytes. -/
theorem blNew_keepsMemory {s : State} (hwf : Memory.wf s = true) (d : BReg) (a : XReg) : keepsMemory (.blNew d a) s := by
  obtain ⟨hmaxb, -, -⟩ := maxb_bounds s.build
  rcases Nat.lt_or_ge (8 * s.build.maxb - 1) (s.readX a).toNat with hgt | hle
  · exact keepsMemory_of_fault hwf (exec_blNew_of_gt s d a hgt)
  · refine keepsMemory_of_writeBuf hwf (exec_blNew_of_le s d a hle) ?_
    rw [length_newBitlist]
    omega

theorem blSetbit_keepsMemory {s : State} (hwf : Memory.wf s = true) (d : BReg) (a : XReg) (v : Bool) :
    keepsMemory (.blSetbit d a v) s := by
  refine keepsMemory_of_wf hwf rfl fun hbl => ?_
  rcases Nat.lt_or_ge (s.readX a).toNat (blLen (s.readBuf d)) with hlt | hge
  · refine keepsMemory_of_writeBuf hwf (exec_blSetbit_of_lt d a v hbl hlt) ?_
    rw [length_setBit]
    exact length_readBuf_le_maxb hwf d
  · exact keepsMemory_of_nothing hwf (exec_blSetbit_of_ge d a v hbl hge)

theorem blBytes_keepsMemory {s : State} (hwf : Memory.wf s = true) (d a : BReg) : keepsMemory (.blBytes d a) s := by
  refine keepsMemory_of_wf hwf rfl fun hbl => keepsMemory_of_writeBuf hwf (exec_blBytes s d a hbl) ?_
  calc (trimZeros (clearSentinel (s.readBuf a))).length
    _ ≤ (clearSentinel (s.readBuf a)).length := length_trimZeros_le _
    _ = (s.readBuf a).length := length_clearSentinel (bitlistLength_blLen hbl)
    _ ≤ s.build.maxb := length_readBuf_le_maxb hwf a

theorem bvSetbit_keepsMemory {s : State} (hwf : Memory.wf s = true) (d : BReg) (a : XReg) (v : Bool) :
    keepsMemory (.bvSetbit d a v) s := by
  by_cases h : s.bitAccessible (s.readBuf d) (s.readX a).toNat = true
  · refine keepsMemory_of_writeBuf hwf (exec_bvSetbit_of_accessible h v) ?_
    rw [length_setBit]
    exact length_readBuf_le_maxb hwf d
  · exact keepsMemory_of_nothing hwf (by rw [exec_bvSetbit, if_neg h])

theorem length_seen_le_maxb {s : State} (hwf : Memory.wf s = true) (b : BReg) :
    (s.seen (s.readBuf b)).length ≤ s.build.maxb := by
  rw [length_seen]
  exact (Nat.min_le_left _ _).trans (length_readBuf_le_maxb hwf b)

/-- A listing has at most one entry for each bit of a buffer. -/
theorem bvIndices_keepsMemory {s : State} (hwf : Memory.wf s = true) (d : XReg) (a : BReg) :
    keepsMemory (.bvIndices d a) s := by
  have hseen := length_seen_le_maxb hwf a
  have hlisted := length_setPositions_le (s.seen (s.readBuf a))
  have hlisting := Memory_wf_writeListing hwf (positions := setPositions (s.seen (s.readBuf a))) (by omega)
  exact ⟨_, exec_bvIndices s d a, Memory_wf_complete (Memory_wf_writeX hlisting d _) false⟩

theorem bvOr_keepsMemory {s : State} (hwf : Memory.wf s = true) (d a b : BReg) : keepsMemory (.bvOr d a b) s := by
  refine keepsMemory_of_match hwf fun h => ?_
  have hlen := (bvOr_match_iff s d a b).mp h
  refine keepsMemory_of_writeBuf hwf (exec_bvOr s d a b hlen) ?_
  rw [length_bytesOr hlen]
  exact length_readBuf_le_maxb hwf a

theorem bvShift_keepsMemory {s : State} (hwf : Memory.wf s = true) (d : BReg) (a : XReg) :
    keepsMemory (.bvShift d a) s := by
  by_cases hempty : (s.readBuf d).length = 0
  · exact keepsMemory_of_nothing hwf (by rw [exec_bvShift, if_pos hempty])
  · refine keepsMemory_of_writeBuf hwf (by rw [exec_bvShift, if_neg hempty]) ?_
    rw [length_tailClear, length_shiftBytes]
    exact length_readBuf_le_maxb hwf d

/-- Every command; a legal width is what keeps BV.NEW within MAXB bytes. -/
theorem exec_keepsMemory {s : State} (hwf : Memory.wf s = true) (hwidth : s.widthLegal = true) (i : Instr) :
    keepsMemory i s := by
  cases i with
  | nop => exact keepsMemory_of_nothing hwf (exec_nop s)
  | blNew d a => exact blNew_keepsMemory hwf d a
  | blLen d a => exact keepsMemory_of_wf hwf rfl fun hbl => keepsMemory_of_writeX hwf (exec_blLen s d a hbl)
  | blBitat d a b => exact keepsMemory_of_wf hwf rfl fun hbl => keepsMemory_of_writeX hwf (exec_blBitat s d a b hbl)
  | blSetbit d a v => exact blSetbit_keepsMemory hwf d a v
  | blCount d a => exact keepsMemory_of_wf hwf rfl fun hbl => keepsMemory_of_writeX hwf (exec_blCount s d a hbl)
  | blBytes d a => exact blBytes_keepsMemory hwf d a
  | bvNew d =>
    refine keepsMemory_of_writeBuf hwf (exec_bvNew s d) ?_
    rw [List.length_replicate]
    exact byteWidth_le_maxb hwidth
  | bvLen d => exact keepsMemory_of_writeX hwf (exec_bvLen s d)
  | bvBitat d a b => exact keepsMemory_of_writeX hwf (exec_bvBitat s d a b)
  | bvSetbit d a v => exact bvSetbit_keepsMemory hwf d a v
  | bvCount d a => exact keepsMemory_of_writeX hwf (exec_bvCount s d a)
  | bvBytes d a => exact keepsMemory_of_writeBuf hwf (exec_bvBytes s d a) (length_seen_le_maxb hwf a)
  | bvIndices d a => exact bvIndices_keepsMemory hwf d a
  | bvContains d a b =>
    exact keepsMemory_of_match hwf fun h =>
      keepsMemory_of_writeX hwf (exec_bvContains s d a b ((bvContains_match_iff s d a b).mp h))
  | bvOverlaps d a b =>
    exact keepsMemory_of_match hwf fun h =>
      keepsMemory_of_writeX hwf (exec_bvOverlaps s d a b ((bvOverlaps_match_iff s d a b).mp h))
  | bvOr d a b => exact bvOr_keepsMemory hwf d a b
  | bvShift d a => exact bvShift_keepsMemory hwf d a

/-! ### Events keep each part of the invariant -/

theorem writeCfg_memory (s : State) (v : Word) : Memory.wf (s.writeCfg v) = Memory.wf s := by
  unfold State.writeCfg; split <;> rfl

theorem cmdWrite_keeps_memory {w : Word} {s t : State} (h : cmdWrite w s = .next t) (hwf : Memory.wf s = true)
    (hwidth : s.widthLegal = true) : Memory.wf t = true := by
  rcases cmdWrite_cases h with ⟨-, rfl⟩ | ⟨-, c, v, -, rfl, -⟩ | ⟨-, i, -, hexec, -⟩
  · exact hwf
  · exact Memory_wf_enterFault hwf c v
  · obtain ⟨u, hu, huwf⟩ := exec_keepsMemory hwf hwidth i
    obtain rfl : u = t := by simpa [hu] using hexec
    exact huwf

theorem served_keeps_memory {s t : State} {e : HostEvent} (h : Served s t e) (hwf : Memory.wf s = true)
    (hwidth : s.widthLegal = true) : Memory.wf t = true := by
  cases h with
  | same _ ht => exact ht ▸ hwf
  | reset ht => exact ht ▸ Memory_wf_resetUnit s
  | ctrl v _ ht => exact ht ▸ Memory_wf_resetUnit s
  | cfg v ht => rw [ht, writeCfg_memory, hwf]
  | x off r v _ ht => exact ht ▸ Memory_wf_writeX hwf r v
  | blen off b v _ ht => exact ht ▸ Memory_wf_writeBlen hwf b v
  | data off b j v ht => exact ht ▸ Memory_wf_writeBufData hwf b j v
  | cmd w hcmd => exact cmdWrite_keeps_memory hcmd hwf hwidth

theorem widthLegal_resetUnit (s : State) : s.resetUnit.widthLegal = true := widthLegal_resetOf s.build

theorem widthLegal_of_config {s t : State} (h : s.widthLegal = true) (hbuild : t.build = s.build) (hvn : t.vn = s.vn) :
    t.widthLegal = true := by
  rwa [State.widthLegal, State.width, hbuild, hvn, ← State.width]

theorem widthLegal_writeCfg {s : State} (h : s.widthLegal = true) (v : Word) : (s.writeCfg v).widthLegal = true := by
  rcases writeCfg_vn s v with hkept | ⟨hvn, hpos, hle⟩
  · exact widthLegal_of_config h (writeCfg_build s v) hkept
  · rw [widthLegal_iff, State.width, hvn, writeCfg_build]
    exact ⟨hpos, hle⟩

theorem served_keeps_widthLegal {s t : State} {e : HostEvent} (h : Served s t e) (hwidth : s.widthLegal = true) :
    t.widthLegal = true := by
  cases h with
  | same _ ht => exact ht ▸ hwidth
  | reset ht => exact ht ▸ widthLegal_resetUnit s
  | ctrl v _ ht => exact ht ▸ widthLegal_resetUnit s
  | cfg v ht => exact ht ▸ widthLegal_writeCfg hwidth v
  | x off r v _ ht => exact ht ▸ hwidth
  | blen off b v _ ht => exact ht ▸ widthLegal_of_config hwidth (writeBlen_build s b v) (writeBlen_vn s b v)
  | data off b j v ht => exact ht ▸ hwidth
  | cmd w hcmd =>
    obtain ⟨hbuild, hvn⟩ := cmdWrite_keeps_config hcmd
    exact widthLegal_of_config hwidth hbuild hvn

theorem faultRecordWf_writeCfg (s : State) (v : Word) : (s.writeCfg v).faultRecordWf = s.faultRecordWf := by
  unfold State.writeCfg; split <;> rfl

theorem faultRecordWf_writeBlen (s : State) (b : BReg) (v : Word) : (s.writeBlen b v).faultRecordWf = s.faultRecordWf := by
  unfold State.writeBlen; split <;> rfl

theorem faultRecordWf_resetOf (build : Build) : (State.resetOf build).faultRecordWf = true := rfl

theorem faultRecordWf_enterFault (s : State) {c : FaultCause} (hc : c ≠ .none) (w : Word) :
    (s.enterFault c w).faultRecordWf = true := by
  rw [State.faultRecordWf, enterFault_faulted, if_pos rfl]
  exact bne_iff_ne.mpr hc

/-- A command is dropped, records a cause in the fault state, or leaves the record. -/
theorem cmdWrite_keeps_faultRecord {w : Word} {s t : State} (h : cmdWrite w s = .next t)
    (hrecord : s.faultRecordWf = true) : t.faultRecordWf = true := by
  rcases cmdWrite_cases h with
    ⟨-, rfl⟩ | ⟨-, c, v, hc, rfl, -⟩ | ⟨-, i, -, -, -, ⟨-, -, hfaulted, hcause, hinfo, -⟩, -⟩
  · exact hrecord
  · exact faultRecordWf_enterFault s hc v
  · rwa [State.faultRecordWf, hfaulted, hcause, hinfo, ← State.faultRecordWf]

theorem served_keeps_faultRecord {s t : State} {e : HostEvent} (h : Served s t e) (hrecord : s.faultRecordWf = true) :
    t.faultRecordWf = true := by
  cases h with
  | same _ ht => exact ht ▸ hrecord
  | reset ht => exact ht ▸ faultRecordWf_resetOf s.build
  | ctrl v _ ht => exact ht ▸ faultRecordWf_resetOf s.build
  | cfg v ht => rw [ht, faultRecordWf_writeCfg, hrecord]
  | x off r v _ ht => exact ht ▸ hrecord
  | blen off b v _ ht => rw [ht, faultRecordWf_writeBlen, hrecord]
  | data off b j v ht => exact ht ▸ hrecord
  | cmd w hcmd => exact cmdWrite_keeps_faultRecord hcmd hrecord

theorem served_keeps_inv {s t : State} {e : HostEvent} (h : Served s t e) (hinv : s.inv = true) : t.inv = true := by
  obtain ⟨hwf, hwidth, hrecord⟩ := (inv_iff s).mp hinv
  exact (inv_iff t).mpr
    ⟨served_keeps_memory h hwf hwidth, served_keeps_widthLegal h hwidth, served_keeps_faultRecord h hrecord⟩

/-- Settles O15: a step serves one event on the answered port, whose queues the invariant does not mention. -/
theorem stepKeepsInvariant : Obligations.StepKeepsInvariant := by
  intro s t hinv hstep
  rcases step_next hstep with ⟨-, rfl⟩ | ⟨e, rest, rs, -, -, hserved⟩
  · exact hinv
  · exact served_keeps_inv hserved hinv

/-- Settles O16: empty memories, the width 16, and no fault recorded. -/
theorem resetHasInvariant : Obligations.ResetHasInvariant :=
  fun build => (inv_iff _).mpr ⟨Memory_wf_resetOf build, widthLegal_resetOf build, faultRecordWf_resetOf build⟩

end Sys2Proof.InvariantProofs
end

section
/-! PROOFS. The host port: reads and writes of the MMIO registers (20_memory.md sections 3 and 4, 10_state.md section 6), and the
loading of a buffer (30_encoding.md section 4). -/

namespace Sys2Proof.PortProofs

open Sys2Proof.Machine Sys2Proof.Laws Sys2Proof.StateProofs Sys2Proof.MemoryProofs Sys2Proof.StepProofs
open Sys2Proof.ShiftProofs

/-! ### Reads (20_memory.md R54, R56, R57) -/

/-- The port's answer to a read. -/
def readResponse (s : State) (off : Offset) (bytes : Nat) : HostResponse :=
  match accessedReg s.build off bytes with
  | some r => .read .okay (s.readReg r)
  | none => .read .busErr 0

theorem readResponse_of_reg {s : State} {off : Offset} {bytes : Nat} {r : MmioReg}
    (h : accessedReg s.build off bytes = some r) : readResponse s off bytes = .read .okay (s.readReg r) := by
  rw [readResponse, h]

theorem readResponse_of_illegal {s : State} {off : Offset} {bytes : Nat} (h : illegalAccess s.build off.toNat bytes) :
    readResponse s off bytes = .read .busErr 0 := by
  rw [readResponse, accessedReg_of_illegal off bytes h]

theorem readResponse_control {s : State} {off : Offset} {r : MmioReg} (h : (off.toNat, r) ∈ controlOffsets) :
    readResponse s off 8 = .read .okay (s.readReg r) :=
  readResponse_of_reg (accessedReg_control s.build h)

/-- The step of any read, legal or not, is its answer. -/
theorem step_of_read {s : State} {off : Offset} {bytes : Nat} {rest : List HostEvent}
    (hreq : s.requests = .read off bytes :: rest) :
    step s = .next { s with requests := rest, responses := s.responses ++ [readResponse s off bytes] } := by
  rw [step_cons hreq, serve, serveRead, readResponse]
  cases accessedReg s.build off bytes <;> rfl

theorem accessedReg_x (build : Build) {off : Offset} {r : XReg} (h : off.toNat = 0x100 + 8 * r.val) :
    accessedReg build off 8 = some (.x r) := by
  rw [accessedReg, if_pos rfl, mmioReg_x off r h]

theorem accessedReg_idx {build : Build} {off : Offset} {k : Nat} (hk : k < 8 * build.maxb)
    (h : off.toNat = 0x10000 + 8 * k) : accessedReg build off 8 = some (.idx k) := by
  rw [accessedReg, if_pos rfl, mmioReg_idx off k hk h]

/-- Settles O20: the answer is `readResponse`, and each offset's register is the one of the MMIO map. -/
theorem readsHaveNoSideEffect : Obligations.ReadsHaveNoSideEffect := by
  intro s off bytes rest hreq
  refine ⟨readResponse s off bytes, step_of_read hreq, readResponse_of_illegal, ?_⟩
  rintro rfl
  have control {n : Nat} {r : MmioReg} (hmem : (n, r) ∈ controlOffsets) (hoff : off.toNat = n) :
      readResponse s off 8 = .read .okay (s.readReg r) := readResponse_control (by rwa [hoff])
  refine ⟨fun reg hmem => readResponse_control hmem, control (r := .id) (by decide), control (r := .cfg) (by decide),
    control (r := .status) (by decide), ?_, control (r := .seq) (by decide), control (r := .finfo) (by decide),
    control (r := .idxCnt) (by decide), fun x hoff => readResponse_of_reg (accessedReg_x s.build hoff),
    fun b hoff => readResponse_of_reg (accessedReg_blen s.build hoff),
    fun b j hj hoff => readResponse_of_reg (accessedReg_bufData hj hoff),
    fun k hk hoff => readResponse_of_reg (accessedReg_idx hk hoff)⟩
  rintro (hoff | hoff)
  · exact control (r := .cmd) (by decide) hoff
  · exact control (r := .ctrl) (by decide) hoff

/-- Settles O23, bit by bit of the concatenation. -/
theorem statusWordLayout : Obligations.StatusWordLayout := by
  intro s
  refine ⟨?_, ?_, ?_, ?_, ?_, ?_, rfl, rfl, rfl, rfl⟩
  · simp only [State.status, BitVec.getLsbD_append]
    simp
  · simp only [State.status, BitVec.getLsbD_append]
    simp
  · simp only [State.status, BitVec.getLsbD_append]
    simp
  · simp only [State.status, BitVec.extractLsb'_append_eq_of_le, BitVec.extractLsb'_append_eq_right, Nat.reduceSub,
      Nat.reduceLeDiff]
  · simp only [State.status, BitVec.extractLsb'_append_eq_of_le, BitVec.extractLsb'_append_eq_right, Nat.reduceSub,
      Nat.reduceLeDiff]
    rfl
  · simp only [State.status, BitVec.extractLsb'_append_eq_of_le, Nat.reduceSub, Nat.reduceLeDiff]
    rfl

/-! ### Writes without effect (20_memory.md R55 to R57) -/

/-- Settles O21: an illegal access reaches no register. -/
theorem illegalWriteHasNoEffect : Obligations.IllegalWriteHasNoEffect := by
  intro s off bytes v rest hreq hillegal
  rw [step_cons hreq, serve, serveWrite, accessedReg_of_illegal off bytes hillegal]
  rfl

/-- The register's write of v leaves every state as it is. -/
def ignores (r : MmioReg) (v : Word) : Prop := ∀ s, writeReg r v s = .next s

theorem step_of_ignored {s : State} {off : Offset} {v : Word} {rest : List HostEvent} {r : MmioReg}
    (hreq : s.requests = .write off 8 v :: rest) (hreg : accessedReg s.build off 8 = some r) (h : ignores r v) :
    step s = .next { s with requests := rest, responses := s.responses ++ [.write .okay] } := by
  rw [step_write hreq hreg, h]

theorem ctrl_ignores {v : Word} (h : v.getLsbD 0 = false) : ignores .ctrl v := fun s => by
  rw [writeReg, State.writeCtrl, h]
  rfl

theorem readOnly_ignores {n : Nat} (h : n ∈ [0x00, 0x08, 0x18, 0x28, 0x30, 0x40]) (v : Word) :
    ∃ r, (n, r) ∈ controlOffsets ∧ ignores r v := by
  simp only [List.mem_cons, List.not_mem_nil, or_false] at h
  rcases h with rfl | rfl | rfl | rfl | rfl | rfl
  · exact ⟨.id, by decide, fun _ => rfl⟩
  · exact ⟨.param, by decide, fun _ => rfl⟩
  · exact ⟨.status, by decide, fun _ => rfl⟩
  · exact ⟨.seq, by decide, fun _ => rfl⟩
  · exact ⟨.finfo, by decide, fun _ => rfl⟩
  · exact ⟨.idxCnt, by decide, fun _ => rfl⟩

/-- Settles O22: the offset's register ignores the value. -/
theorem readOnlyWritesAreIgnored : Obligations.ReadOnlyWritesAreIgnored := by
  intro s off v rest hreq hoff
  rcases hoff with hcontrol | ⟨hctrl, hbit⟩ | ⟨k, hk, hidx⟩
  · obtain ⟨r, hmem, hignores⟩ := readOnly_ignores hcontrol v
    exact step_of_ignored hreq (accessedReg_control s.build hmem) hignores
  · have hmem : (off.toNat, MmioReg.ctrl) ∈ controlOffsets := by rw [hctrl]; decide
    exact step_of_ignored hreq (accessedReg_control s.build hmem) (ctrl_ignores hbit)
  · exact step_of_ignored hreq (accessedReg_idx hk hidx) fun _ => rfl

/-! ### Writes of CFG and of scalar registers (10_state.md R30, 20_memory.md R55) -/

/-- Settles O27: the low half of the value is the width, taken when it is legal. -/
theorem configWriteIsChecked : Obligations.ConfigWriteIsChecked := by
  intro s v rest hreq
  have hmem : ((0x0010 : Offset).toNat, MmioReg.cfg) ∈ controlOffsets := by decide
  have hlow : (v.setWidth 32).toNat = v.toNat % 2 ^ 32 := BitVec.toNat_setWidth 32 v
  have hval : v.setWidth 32 = BitVec.ofNat 32 v.toNat := BitVec.eq_of_toNat_eq (by simp)
  rw [step_write hreq (accessedReg_control s.build hmem), writeReg, State.writeCfg, hlow, hval]
  split <;> rfl

theorem writeX_changesOnlyX (s : State) (r : XReg) (v : Word) : changesOnlyX r s (s.writeX r v) :=
  changesOnlyX_writeX s r v false

/-- Settles O28: the write is `State.writeX`, which reads no flag. -/
theorem scalarWriteIsServed : Obligations.ScalarWriteIsServed := by
  intro s r off v rest hoff hreq
  refine ⟨s.writeX r v, ?_, writeX_changesOnlyX s r v, rfl, rfl, readX_writeX_self s r v⟩
  rw [step_write hreq (accessedReg_x s.build hoff)]
  rfl

/-! ### Writes of buffer data (20_memory.md R59) -/

/-- Byte i after a write of word j: the word's own byte in the word, the old one elsewhere; none past the length. -/
theorem getD_mergeWord (bytes : List Byte) (j : Nat) (v : Word) (i : Nat) :
    (mergeWord bytes j v).getD i 0 =
      if i < bytes.length ∧ i / 8 = j then wordByte v (i % 8) else bytes.getD i 0 := by
  rw [mergeWord, List.getD_eq_getElem?_getD, List.getElem?_mapIdx]
  rcases Nat.lt_or_ge i bytes.length with hlt | hge
  · rw [List.getElem?_eq_getElem hlt, Option.map_some, Option.getD_some, List.getD_eq_getElem _ _ hlt]
    simp only [hlt, true_and]
  · rw [List.getElem?_eq_none hge, Option.map_none, Option.getD_none, List.getD_eq_default _ _ hge,
      if_neg (fun h => absurd h.1 (Nat.not_lt.mpr hge))]

/-- The step of a BUFDATA write puts the merged bytes into the buffer. -/
theorem step_of_bufData {s : State} {b : BReg} {j : Nat} {off : Offset} {v : Word} {rest : List HostEvent}
    (hj : j < s.build.maxb / 8) (hoff : off.toNat = 0x1000 + b.val * s.build.maxb + 8 * j)
    (hreq : s.requests = .write off 8 v :: rest) :
    step s = .next { s.writeBuf b (mergeWord (s.readBuf b) j v) with
      requests := rest, responses := s.responses ++ [.write .okay] } := by
  rw [step_write hreq (accessedReg_bufData hj hoff)]
  rfl

/-- Settles O25: the write is a merge into one buffer. -/
theorem bufferDataWriteMergesWord : Obligations.BufferDataWriteMergesWord := by
  intro s b j off v rest hj hoff hreq
  refine ⟨_, step_of_bufData hj hoff hreq, writeBuf_changesOnlyBuf s b _, rfl, rfl, ?_, fun i => ?_⟩
  · rw [readBuf_writeBuf_self, length_mergeWord]
  · rw [bufByte_eq, readBuf_writeBuf_self, getD_mergeWord, bufByte_eq, wordByte]

/-! ### Loading a buffer (30_encoding.md R87) -/

/-- A sum of shifted bytes is the LE value of the bytes. -/
theorem valLe_map_range (f : Nat → Byte) (n : Nat) :
    valLe ((List.range n).map f) = ((List.range n).map fun m => (f m).toNat <<< (8 * m)).sum := by
  induction n with
  | zero => rfl
  | succ n ih =>
    rw [List.range_succ, List.map_append, List.map_append, List.sum_append, List.map_singleton, List.map_singleton,
      List.sum_singleton, valLe_append_singleton, ih, List.length_map, List.length_range, Nat.shiftLeft_eq, Nat.mul_comm (_ ^ _)]

/-- Byte m of the word that `ldbuf` packs is byte 8j + m of the bytes, 0 past their end. -/
theorem wordByte_packWord (bytes : List Byte) (j : Nat) {m : Nat} (hm : m < 8) :
    wordByte (BitVec.ofInt 64 (packWord bytes j)) m = bytes.getD (8 * j + m) 0 := by
  apply BitVec.eq_of_getLsbD_eq
  intro k hk
  have hin : 8 * m + k < 64 := by omega
  rw [wordByte, BitVec.getLsbD_extractLsb', BitVec.ofInt_natCast, BitVec.getLsbD_ofNat, packWord, ← valLe_map_range,
    testBit_valLe, getBit_byte _ _ _ hk, decide_eq_true hk, decide_eq_true hin]
  simp [hm]

/-- The first n bytes of the buffer are those to load. -/
def agreesBelow (n : Nat) (loaded bytes : List Byte) : Prop :=
  loaded.length = bytes.length ∧ ∀ i, i < n → loaded.getD i 0 = bytes.getD i 0

theorem eq_of_agreesBelow {n : Nat} {loaded bytes : List Byte} (h : agreesBelow n loaded bytes) (hn : bytes.length ≤ n) :
    loaded = bytes := by
  obtain ⟨hlen, hbytes⟩ := h
  refine List.ext_getElem hlen fun i hi hi' => ?_
  simpa [hi, hi'] using hbytes i (by omega)

/-- Writing word j extends the agreement by a word. -/
theorem agreesBelow_mergeWord {j : Nat} {loaded bytes : List Byte} (h : agreesBelow (8 * j) loaded bytes) :
    agreesBelow (8 * (j + 1)) (mergeWord loaded j (BitVec.ofInt 64 (packWord bytes j))) bytes := by
  obtain ⟨hlen, hbytes⟩ := h
  refine ⟨by rw [length_mergeWord, hlen], fun i hi => ?_⟩
  rw [getD_mergeWord]
  split
  case isTrue hin =>
    rw [wordByte_packWord bytes j (Nat.mod_lt i (by decide))]
    congr 1
    omega
  case isFalse hout =>
    rcases Nat.lt_or_ge i loaded.length with hlt | hge
    · exact hbytes i (by omega)
    · rw [List.getD_eq_default _ _ hge, List.getD_eq_default _ _ (by omega)]

/-- The BUFDATA write of word j that `ldbuf` makes. -/
def loadWord (build : Build) (b : BReg) (bytes : List Byte) (j : Nat) : HostEvent :=
  accessWr (0x1000 + b.val * build.maxb + 8 * j) (packWord bytes j)

/-- The state of a unit that is loading: the buffer so far, the writes still to serve, and the answers given. -/
def loading (s : State) (b : BReg) (loaded : List Byte) (requests : List HostEvent) (responses : List HostResponse) : State :=
  { s.writeBuf b loaded with requests := requests, responses := responses }

/-- A write to the buffer replaces what is loaded so far. -/
theorem writeBuf_loading (s : State) (b : BReg) (loaded loaded' : List Byte) (requests requests' : List HostEvent)
    (responses responses' : List HostResponse) :
    { (loading s b loaded requests responses).writeBuf b loaded' with requests := requests', responses := responses' } =
      loading s b loaded' requests' responses' := by
  simp [loading, State.writeBuf]

/-- The words of a buffer lie in the window. -/
theorem toNat_bufData_offset {build : Build} (b : BReg) {j : Nat} (hj : j < build.maxb / 8) :
    (BitVec.ofNat 17 (0x1000 + b.val * build.maxb + 8 * j)).toNat = 0x1000 + b.val * build.maxb + 8 * j := by
  obtain ⟨-, -, hmaxb⟩ := maxb_bounds build
  have hb : b.val * build.maxb ≤ 7 * 1024 := Nat.mul_le_mul (by omega) hmaxb
  rw [BitVec.toNat_ofNat]
  exact Nat.mod_eq_of_lt (by omega)

theorem step_loadWord {s : State} {b : BReg} {bytes loaded : List Byte} {j : Nat} {rest : List HostEvent}
    {responses : List HostResponse} (hj : j < s.build.maxb / 8) :
    step (loading s b loaded (loadWord s.build b bytes j :: rest) responses) =
      .next (loading s b (mergeWord loaded j (BitVec.ofInt 64 (packWord bytes j))) rest
        (responses ++ [.write .okay])) := by
  have hbuf : (loading s b loaded (loadWord s.build b bytes j :: rest) responses).readBuf b = loaded :=
    readBuf_writeBuf_self s b loaded
  have hstep := step_of_bufData (s := loading s b loaded (loadWord s.build b bytes j :: rest) responses) hj
    (toNat_bufData_offset b hj) rfl
  rw [hstep, hbuf, writeBuf_loading]
  rfl

/-- The word writes from word j on complete the load. -/
theorem run_loadWords {s : State} {b : BReg} {bytes : List Byte} (k : Nat) :
    ∀ (j : Nat) (loaded : List Byte) (responses : List HostResponse), agreesBelow (8 * j) loaded bytes →
      bytes.length ≤ 8 * (j + k) → j + k ≤ s.build.maxb / 8 →
      Host.Core.run Sys2Proof.core k
          (loading s b loaded ((List.range' j k).map (loadWord s.build b bytes)) responses) =
        .next (loading s b bytes [] (responses ++ List.replicate k (.write .okay))) := by
  induction k with
  | zero =>
    intro j loaded responses hagrees hlen _
    rw [eq_of_agreesBelow hagrees hlen]
    simp only [List.replicate_zero, List.append_nil]
    rfl
  | succ k ih =>
    intro j loaded responses hagrees hlen hfits
    rw [List.range'_succ, List.map_cons, run_succ_of_step (step_loadWord (by omega)),
      ih (j + 1) _ _ (agreesBelow_mergeWord hagrees) (by omega) (by omega), List.replicate_succ, List.append_assoc,
      List.singleton_append]

/-- The BLEN write that `ldbuf` makes first gives the buffer the length of the bytes. -/
theorem step_loadLength {s : State} {b : BReg} {bytes : List Byte} {rest : List HostEvent}
    (hlen : bytes.length ≤ s.build.maxb) (hreq : s.requests = accessWr (0x0200 + 8 * b.val) bytes.length :: rest) :
    ∃ loaded, agreesBelow 0 loaded bytes ∧
      step s = .next (loading s b loaded rest (s.responses ++ [.write .okay])) := by
  obtain ⟨-, -, hmaxb⟩ := maxb_bounds s.build
  have hoff : (BitVec.ofNat 17 (0x0200 + 8 * b.val)).toNat = 0x0200 + 8 * b.val := by
    rw [BitVec.toNat_ofNat]
    exact Nat.mod_eq_of_lt (by omega)
  have hval : (BitVec.ofInt 64 (bytes.length : Int)).toNat = bytes.length := by
    rw [BitVec.ofInt_natCast, BitVec.toNat_ofNat]
    exact Nat.mod_eq_of_lt (by omega)
  refine ⟨_, ⟨length_take_append_replicate (s.readBuf b) bytes.length, fun i hi => absurd hi (Nat.not_lt_zero i)⟩, ?_⟩
  rw [step_write hreq (accessedReg_blen s.build hoff), writeReg, writeBlen_withPort,
    writeBlen_of_le b (by rwa [hval]), hval]
  rfl

/-- Settles O29: the BLEN write sets the length, and each word write extends what is loaded by a word. -/
theorem loadBufferLoadsItsBytes : Obligations.LoadBufferLoadsItsBytes := by
  intro s b bytes hreq hlen
  obtain ⟨-, hwords, -⟩ := maxb_bounds s.build
  have hissue : (s.issueLine (.ldbuf b bytes)).requests =
      accessWr (0x0200 + 8 * b.val) bytes.length ::
        (List.range' 0 (ceilDiv bytes.length 8)).map (loadWord s.build b bytes) := by
    rw [← List.range_eq_range', State.issueLine, hreq]
    rfl
  have hcover : bytes.length ≤ 8 * (0 + ceilDiv bytes.length 8) := by rw [ceilDiv]; omega
  have hfits : 0 + ceilDiv bytes.length 8 ≤ s.build.maxb / 8 := by rw [ceilDiv]; omega
  obtain ⟨loaded, hagrees, hstep⟩ := step_loadLength (s := s.issueLine (.ldbuf b bytes)) hlen hissue
  refine ⟨s.writeBuf b bytes, ?_, readBuf_writeBuf_self s b bytes, writeBuf_changesOnlyBuf s b bytes, rfl, rfl⟩
  have hrun := run_loadWords (s := s) (b := b) (ceilDiv bytes.length 8) 0 loaded (s.responses ++ [.write .okay]) hagrees
    hcover hfits
  rw [run_succ_of_step hstep]
  refine hrun.trans ?_
  rw [List.append_assoc, List.singleton_append, ← List.replicate_succ, loading, ← hreq]
  rfl

end Sys2Proof.PortProofs
end
